-- ==== Sys2Proof/Word.lean ====
section
/-! DEFINITION. The fixed widths of the block: what a port address, a port word, a stored entry and a byte of the
model's memory image are (spec/00_scope.md rule R4, spec/20_memory.md rule R50). -/

namespace Sys2Proof

/-- A command word and the data of a port transaction: 32 bits, bit 0 the least significant (R50, R80, R61). -/
abbrev Word := BitVec 32

/-- A port address: 18 bits, naming one 32-bit word (R50). -/
abbrev Addr := BitVec 18

/-- A stored entry (a residue, a vector entry, a matrix entry): `QW = 16` bits, unsigned unless a rule says
`signed16` (R4, R21, R22). -/
abbrev Entry := BitVec 16

/-- One byte of the model's memory image; the block itself moves no bytes (R61; assumption log, entry 1). -/
abbrev Byte := BitVec 8

end Sys2Proof
end

