-- ==== Sys2Proof/Config.lean ====
section
/-! DEFINITION. The implementation parameters of spec/00_scope.md rule R4, all fixed in this version of the block, and
the reset values of the two parameter registers (spec/70_reset_and_hazards.md rule R171). The spec leaves no value of
the machine open (spec/93_implementation_defined.md), so there is no free value here. -/

namespace Sys2Proof.Config

/-- `QW`: the width in bits of one stored entry (R4). -/
abbrev entryWidth : Nat := 16

/-- `NMAX`: the largest `n` the block accepts (R4). -/
abbrev nMax : Nat := 256

/-- `MMAX = 2·NMAX`: rows of the matrix memory and entries of one vector bank (R4). -/
abbrev mMax : Nat := 512

/-- `NBANK`: the number of vector banks (R4). -/
abbrev bankCount : Nat := 4

/-- The reset value of register `N`, the document's default `n` (R25, R171). -/
abbrev resetN : BitVec 9 := 128#9

/-- The reset value of register `Q`, the document's default `q` (R26, R171). -/
abbrev resetQ : BitVec 16 := 2048#16

/-- What a byte of bank or matrix storage that nothing has written reads as: reset zeroizes every entry
(R171, R172). -/
abbrev unlistedByte : Byte := 0#8

end Sys2Proof.Config
end

