-- ==== Sys2Proof/Syntax.lean ====
section
/-! DEFINITION. The command set: one constructor of `Instr` for each of the 11 rows of spec/opcode_table.json
(spec/30_encoding.md rules R84, R85), with its operands as R83 decodes them. -/

namespace Sys2Proof

/-- The four identical vector banks `V0` to `V3`, which a 2-bit bank field names (R21, R83). -/
inductive Bank where
  | v0
  | v1
  | v2
  | v3
  deriving DecidableEq, Repr

/-- The length select `L` of the DOT family: `n` (L = 0) is `N` entries, `m` (L = 1) is `2·N` entries
(R81, R88, R123). -/
inductive Len where
  | n
  | m
  deriving DecidableEq, Repr

/-- A command of the block, with the operands of its format (R82, R85). -/
inductive Instr where
  /-- `NOP` (R100). -/
  | nop
  /-- `SETN imm`: the new lattice dimension `n` (R101). -/
  | setn (imm : BitVec 16)
  /-- `SETQ imm`: the new modulus `q` (R102). -/
  | setq (imm : BitVec 16)
  /-- `MVM vd, vs1`: matrix times vector (R110). -/
  | mvm (vd vs1 : Bank)
  /-- `MVMA vd, vs1, vs2`: matrix times vector plus the signed addend bank (R111). -/
  | mvma (vd vs1 vs2 : Bank)
  /-- `MVMT vd, vs1`: transposed matrix times vector (R112). -/
  | mvmt (vd vs1 : Bank)
  /-- `DOT vs1, vs2, len`: the bare dot product (R120). -/
  | dot (vs1 vs2 : Bank) (len : Len)
  /-- `DOTADD vs1, vs2, len`: dot product plus `S` (R121). -/
  | dotadd (vs1 vs2 : Bank) (len : Len)
  /-- `DOTSUB vs1, vs2, len`: `S` minus dot product (R122). -/
  | dotsub (vs1 vs2 : Bank) (len : Len)
  /-- `QENC imm`: encode the message bit `imm` (R130). -/
  | qenc (imm : BitVec 16)
  /-- `QDEC`: decide the bit from `S` (R131). -/
  | qdec
  deriving DecidableEq, Repr

end Sys2Proof
end

