-- ==== Sys2Proof/WellFormed.lean ====
section
/-! DEFINITION. Which terms of `Instr` are commands of the block. The operand types already bound the immediate, the
bank numbers and the length select (R83); the one remaining condition is the aliasing rule of the MVM family
(spec/41_mvm.md rule R113, spec/30_encoding.md rule R85). -/

namespace Sys2Proof

/-- The check an assembler makes beyond the operand ranges: the destination bank of MVM, MVMA and MVMT differs from
the source bank; MVMA's addend is exempt (R88, R113). -/
def Instr.wellFormed : Instr → Bool
  | .nop => true
  | .setn _ => true
  | .setq _ => true
  | .mvm vd vs1 => decide (vd ≠ vs1)
  | .mvma vd vs1 _ => decide (vd ≠ vs1)
  | .mvmt vd vs1 => decide (vd ≠ vs1)
  | .dot _ _ _ => true
  | .dotadd _ _ _ => true
  | .dotsub _ _ _ => true
  | .qenc _ => true
  | .qdec => true

/-- `Instr.wellFormed` as a decidable proposition. -/
abbrev Instr.WellFormed (i : Instr) : Prop := i.wellFormed = true

end Sys2Proof
end

