-- ==== Sys2Proof/Decode.lean ====
section
/-! DEFINITION. The decoder of spec/30_encoding.md rule R85, total on every 32-bit word and rejecting by name, and the
encoder of rule R88. Fields are read with the spec's own `bits[hi:lo]` (spec/00_scope.md section 5). -/

namespace Sys2Proof

/-- `bits[hi:lo]` of the number `x`: `floor(x / 2^lo) mod 2^(hi−lo+1)` (spec/00_scope.md section 5). -/
def bits (x hi lo : Nat) : Nat := x / 2 ^ lo % 2 ^ (hi - lo + 1)

/-- The bank whose number is the 2-bit field `b` (R83). -/
def bankOfNumber (b : Nat) : Bank :=
  match b with
  | 0 => .v0
  | 1 => .v1
  | 2 => .v2
  | _ => .v3

/-- The number of a bank (R21). -/
def bankNumber : Bank → Nat
  | .v0 => 0
  | .v1 => 1
  | .v2 => 2
  | .v3 => 3

/-- The length the field `L` selects (R83). -/
def lenOfField (l : Nat) : Len := if l = 0 then .n else .m

/-- The field `L` of a length (R88). -/
def lenField : Len → Nat
  | .n => 0
  | .m => 1

/-- Why a word is Illegal: the three reasons rule R143 lists for decoding. The block does not record which one it
was; the names are for the reader. -/
inductive IllegalWord where
  /-- `op` is none of the 11 of rule R84 (R87). -/
  | undefinedOpcode
  /-- A bit the format does not use is 1 (R86). -/
  | mustBeZero
  /-- `vd = vs1` in MVM, MVMA or MVMT (R113). -/
  | aliased
  deriving DecidableEq, Repr

/-- What a word decodes to: a command, or Illegal (R85). -/
inductive Decoded where
  | command (i : Instr)
  | illegal (why : IllegalWord)
  deriving DecidableEq, Repr

/-- The field positions of a command word (R81). -/
def opField (w : Word) : Nat := bits w.toNat 31 24
/-- Destination bank field (R81). -/
def vdField (w : Word) : Bank := bankOfNumber (bits w.toNat 23 22)
/-- First source bank field (R81). -/
def vs1Field (w : Word) : Bank := bankOfNumber (bits w.toNat 21 20)
/-- Second source bank field (R81). -/
def vs2Field (w : Word) : Bank := bankOfNumber (bits w.toNat 19 18)
/-- Length select field (R81). -/
def lField (w : Word) : Len := lenOfField (bits w.toNat 16 16)
/-- Immediate field: unsigned, used as it stands (R81, R83). -/
def immField (w : Word) : BitVec 16 := BitVec.ofNat 16 (bits w.toNat 15 0)

/-- `i` where the must-be-zero test holds, else Illegal (R86). -/
def checkZero (zero : Bool) (i : Instr) : Decoded :=
  if zero then .command i else .illegal .mustBeZero

/-- The same with the aliasing test of the MVM family behind it (R85, R113). -/
def checkMvm (zero : Bool) (vd vs1 : Bank) (i : Instr) : Decoded :=
  if zero then (if vd ≠ vs1 then .command i else .illegal .aliased) else .illegal .mustBeZero

/-- The must-be-zero test of format D: `vd`, bit 17 and `imm` (R82, R85). -/
def formatDZero (w : Word) : Bool :=
  decide (bits w.toNat 23 22 = 0) && decide (bits w.toNat 17 17 = 0) && decide (bits w.toNat 15 0 = 0)

/-- `Decode(w)`, row by row as rule R85 writes it. -/
def decode (w : Word) : Decoded :=
  match opField w with
  | 0x00 => checkZero (decide (bits w.toNat 23 0 = 0)) .nop
  | 0x01 => checkZero (decide (bits w.toNat 23 16 = 0)) (.setn (immField w))
  | 0x02 => checkZero (decide (bits w.toNat 23 16 = 0)) (.setq (immField w))
  | 0x10 => checkMvm (decide (bits w.toNat 19 0 = 0)) (vdField w) (vs1Field w) (.mvm (vdField w) (vs1Field w))
  | 0x11 => checkMvm (decide (bits w.toNat 17 0 = 0)) (vdField w) (vs1Field w)
      (.mvma (vdField w) (vs1Field w) (vs2Field w))
  | 0x12 => checkMvm (decide (bits w.toNat 19 0 = 0)) (vdField w) (vs1Field w) (.mvmt (vdField w) (vs1Field w))
  | 0x20 => checkZero (formatDZero w) (.dot (vs1Field w) (vs2Field w) (lField w))
  | 0x21 => checkZero (formatDZero w) (.dotadd (vs1Field w) (vs2Field w) (lField w))
  | 0x22 => checkZero (formatDZero w) (.dotsub (vs1Field w) (vs2Field w) (lField w))
  | 0x30 => checkZero (decide (bits w.toNat 23 16 = 0)) (.qenc (immField w))
  | 0x31 => checkZero (decide (bits w.toNat 23 0 = 0)) .qdec
  | _ => .illegal .undefinedOpcode

/-- The number of a command word, from the table of rule R88; `x << k` there is `x · 2^k`. -/
def encodeNat : Instr → Nat
  | .nop => 0x00000000
  | .setn imm => 0x01000000 + imm.toNat
  | .setq imm => 0x02000000 + imm.toNat
  | .mvm vd vs1 => 0x10000000 + bankNumber vd * 2 ^ 22 + bankNumber vs1 * 2 ^ 20
  | .mvma vd vs1 vs2 =>
      0x11000000 + bankNumber vd * 2 ^ 22 + bankNumber vs1 * 2 ^ 20 + bankNumber vs2 * 2 ^ 18
  | .mvmt vd vs1 => 0x12000000 + bankNumber vd * 2 ^ 22 + bankNumber vs1 * 2 ^ 20
  | .dot vs1 vs2 len => 0x20000000 + bankNumber vs1 * 2 ^ 20 + bankNumber vs2 * 2 ^ 18 + lenField len * 2 ^ 16
  | .dotadd vs1 vs2 len => 0x21000000 + bankNumber vs1 * 2 ^ 20 + bankNumber vs2 * 2 ^ 18 + lenField len * 2 ^ 16
  | .dotsub vs1 vs2 len => 0x22000000 + bankNumber vs1 * 2 ^ 20 + bankNumber vs2 * 2 ^ 18 + lenField len * 2 ^ 16
  | .qenc imm => 0x30000000 + imm.toNat
  | .qdec => 0x31000000

/-- The word of a command (R88). It is defined on aliased terms of the MVM family too: the word a host would write for
them, which decodes to Illegal (R113). -/
def encode (i : Instr) : Word := BitVec.ofNat 32 (encodeNat i)

/-- The instruction the decoder reads from an instruction whose `nbits` bits are `w`, numbered as
spec/opcode_table.json numbers them; every bit from `nbits` on is 0. A command is one 32-bit word (R80). -/
def decodeTableWord (nbits w : Nat) : Option Instr :=
  if nbits ≤ 32 then
    match decode (BitVec.ofNat 32 (w % 2 ^ nbits)) with
    | .command i => some i
    | .illegal _ => none
  else none

end Sys2Proof
end

