-- ==== Sys2Proof/Machine/AddressMap.lean ====
section
/-! DEFINITION. The fixed address map of the port (spec/20_memory.md rules R53 to R56). -/

namespace Sys2Proof.Machine

/-- The registers of rule R54. -/
inductive PortReg where
  | cmd
  | status
  | fault
  | fcmd
  | ctrl
  | n
  | m
  | q
  | half
  | s
  | bit
  deriving DecidableEq, Repr

/-- What a port address names (R53). -/
inductive Target where
  /-- A register (R54). -/
  | reg (r : PortReg)
  /-- The entry `V[k][i]` (R55). -/
  | bank (k : Bank) (i : Nat)
  /-- The entry `A[i][j]` (R56). -/
  | matrix (i j : Nat)
  /-- Nothing (R60). -/
  | unmapped
  deriving DecidableEq, Repr

/-- The address of each register (R54). -/
def regAddr : PortReg → Addr
  | .cmd => 0x00000#18
  | .status => 0x00001#18
  | .fault => 0x00002#18
  | .fcmd => 0x00003#18
  | .ctrl => 0x00004#18
  | .n => 0x00005#18
  | .m => 0x00006#18
  | .q => 0x00007#18
  | .half => 0x00008#18
  | .s => 0x00009#18
  | .bit => 0x0000A#18

/-- The word address of `V[k][i]`: `0x00800 + 0x200·k + i` (R55). -/
def bankAddr (k : Bank) (i : Nat) : Nat := 0x00800 + 0x200 * bankNumber k + i

/-- The word address of `A[i][j]`: `0x20000 + 0x100·i + j`, row-major with a fixed stride (R56). -/
def matrixAddr (i j : Nat) : Nat := 0x20000 + 0x100 * i + j

/-- What an address names, with the bit fields of rules R55 and R56 for the banks and the matrix. -/
def targetOf (a : Addr) : Target :=
  match a.toNat with
  | 0x00000 => .reg .cmd
  | 0x00001 => .reg .status
  | 0x00002 => .reg .fault
  | 0x00003 => .reg .fcmd
  | 0x00004 => .reg .ctrl
  | 0x00005 => .reg .n
  | 0x00006 => .reg .m
  | 0x00007 => .reg .q
  | 0x00008 => .reg .half
  | 0x00009 => .reg .s
  | 0x0000A => .reg .bit
  | x =>
    if 0x00800 ≤ x ∧ x ≤ 0x00FFF then .bank (bankOfNumber (bits x 10 9)) (bits x 8 0)
    else if 0x20000 ≤ x ∧ x ≤ 0x3FFFF then .matrix (bits x 16 8) (bits x 7 0)
    else .unmapped

end Sys2Proof.Machine
end

