-- ==== Sys2Proof/Machine/State.lean ====
section
/-! DEFINITION. The state of the block: the nine elements of spec/10_state.md rule R20, and the two fields of the
model's own that carry the host's side of the port (assumption log, entries 2 and 3). -/

namespace Sys2Proof.Machine

/-- Why a step stops the machine. There is no constructor: no rule of the spec stops the model. The block's own faults
(PARAM, CONTRACT, ILLEGAL) are TAKEN: `raiseFault` writes `FAULT` and `FCMD` and answers a next state (R144), and a
halted block goes on answering transactions (R145). Safe: nothing is hidden behind a fault. -/
inductive Fault where
  deriving DecidableEq, Repr

/-- Why a step has no meaning. -/
inductive Refusal where
  /-- Raised by an arm of `exec` whose instruction has no meaning yet; no arm of this model raises it. Safe: a refusal
  proves nothing about the hardware. -/
  | notModelled (mnemonic : String)
  deriving DecidableEq, Repr

/-- The three fault causes of rule R140. -/
inductive FaultCause where
  /-- The document's ParameterError (R141). -/
  | param
  /-- The document's ContractViolation (R142). -/
  | contract
  /-- A word that is not a command, or a command not allowed now (R143). -/
  | illegal
  deriving DecidableEq, Repr

/-- One host transaction on the port (R50): `PortRead(addr)` or `PortWrite(addr, data)`. -/
inductive Transaction where
  | read (addr : Addr)
  | write (addr : Addr) (data : Word)
  deriving DecidableEq, Repr

/-- What the outside world can do to the block in one step (R52): present a transaction, or pulse the pin `rst_n`. -/
inductive Input where
  /-- A transaction that the block accepts and answers. -/
  | transaction (t : Transaction)
  /-- `rst_n` held low and released. `abandoned` is the transaction in progress when the pin fell, if any: it is
  abandoned and never answered (R170, R148). -/
  | hardReset (abandoned : Option Transaction)
  deriving DecidableEq, Repr

/-- The response of an accepted transaction: `rsp_rdata` and `rsp_err` (R50, R51). -/
structure Response where
  /-- 32 bits of read data; 0 on a write and on an error (R51). -/
  data : Word
  /-- 0 (done, `false`) or 1 (refused, `true`). -/
  err : Bool
  deriving DecidableEq, Repr

/-- The bank and matrix storage as a list of (byte address, byte) in canonical form. The 16-bit entry at port word
address `a` is the two bytes at `2·a` (bits 7:0) and `2·a + 1` (bits 15:8) (assumption log, entry 1). -/
abbrev Memory := List Host.Cell

/-- The state of the block (R20), then the model's own port fields. -/
structure State where
  /-- `N`, 9 bits: the lattice dimension `n` (R25). -/
  n : BitVec 9
  /-- `Q`, 16 bits: the modulus `q` (R26). -/
  q : Entry
  /-- `S`, 16 bits: the scalar accumulator (R23). -/
  s : Entry
  /-- `BIT`, 1 bit: the result of QDEC (R24). -/
  bit : BitVec 1
  /-- `LOCKED`, 1 bit: a compute command has completed since reset (R29). -/
  locked : Bool
  /-- `FAULT`, 3 bits: sticky fault bits PARAM, CONTRACT, ILLEGAL (R30). -/
  fault : BitVec 3
  /-- `FCMD`, 32 bits: the command word that faulted (R31). -/
  fcmd : Word
  /-- The banks `V[k][i]` (R21) and the matrix `A[i][j]` (R22), at their port word addresses (R53). -/
  mem : Memory
  /-- Not the spec's state: what the host will present, oldest first (assumption log, entry 2). -/
  pending : List Input
  /-- Not the spec's state: the response given by the last step, if it accepted a transaction (assumption log,
  entry 3). -/
  rsp : Option Response
  deriving DecidableEq, Repr

/-- The state after reset (R171): `N = 128`, `Q = 2048`, everything else 0; nothing presented and nothing answered. -/
def State.reset : State where
  n := Config.resetN
  q := Config.resetQ
  s := 0#16
  bit := 0#1
  locked := false
  fault := 0#3
  fcmd := 0#32
  mem := []
  pending := []
  rsp := none

end Sys2Proof.Machine
end

