-- ==== Sys2Proof/Machine/Operands.lean ====
section
/-! DEFINITION. How commands and the port read the state: stored entries by bank and index (spec/20_memory.md rule
R70), the derived values `M` and `HALF` (spec/10_state.md rules R27, R28), the exact integers a command forms
(spec/00_scope.md rules R5 to R7). -/

namespace Sys2Proof.Machine

/-- One byte of the storage image; an unlisted byte reads as reset leaves it (R172). -/
def readByte : Memory → Nat → Byte
  | [], _ => Config.unlistedByte
  | (b, v) :: rest, a => if a = b then v else readByte rest a

/-- The entry at port word address `a` (assumption log, entry 1). -/
def readEntry (m : Memory) (a : Nat) : Entry := readByte m (2 * a + 1) ++ readByte m (2 * a)

/-- `V[k][i]` (R21). -/
def State.v (s : State) (k : Bank) (i : Nat) : Entry := readEntry s.mem (bankAddr k i)

/-- `A[i][j]` (R22). -/
def State.a (s : State) (i j : Nat) : Entry := readEntry s.mem (matrixAddr i j)

/-- The value of register `N` (R25). -/
def State.valN (s : State) : Nat := s.n.toNat

/-- `M = 2·N`, never stored (R27). -/
def State.valM (s : State) : Nat := 2 * s.valN

/-- The value of register `Q` (R26). -/
def State.valQ (s : State) : Nat := s.q.toNat

/-- `HALF = floor(Q/2)`, never stored (R28). -/
def State.half (s : State) : Nat := s.valQ / 2

/-- A stored entry read unsigned (R70). -/
def unsigned (x : Entry) : Int := (x.toNat : Int)

/-- The two's-complement reading of a stored entry, which only MVMA's addend takes (R7). -/
def signed16 (x : Entry) : Int :=
  if x.toNat < 2 ^ 15 then (x.toNat : Int) else (x.toNat : Int) - 2 ^ 16

/-- The length an `L` field selects: `N` or `2·N` (R83, R123). -/
def State.lengthOf (s : State) : Len → Nat
  | .n => s.valN
  | .m => s.valM

/-- `Σ_{k<len} f(k)` on exact integers; 0 for `len = 0` (spec/00_scope.md section 5, R6). -/
def sumBelow : Nat → (Nat → Int) → Int
  | 0, _ => 0
  | len + 1, f => sumBelow len f + f len

/-- `x mod q` as a stored entry: the residue in `[0, q)` (R5), which fits in an entry for every `q` a register holds
(R70). -/
def residue (x : Int) (q : Nat) : Entry := BitVec.ofInt 16 (x % (q : Int))

/-- `Σ_{j<N} A[i][j] · V[k][j]`: row `i` of the matrix times a bank (R110, R111). -/
def State.rowSum (s : State) (k : Bank) (i : Nat) : Int :=
  sumBelow s.valN fun j => unsigned (s.a i j) * unsigned (s.v k j)

/-- `Σ_{i<M} A[i][j] · V[k][i]`: column `j` of the matrix times a bank (R112). -/
def State.colSum (s : State) (k : Bank) (j : Nat) : Int :=
  sumBelow s.valM fun i => unsigned (s.a i j) * unsigned (s.v k i)

/-- `Σ_{k<len} V[k1][k] · V[k2][k]`: the dot product of the DOT family (R120). -/
def State.dotSum (s : State) (k1 k2 : Bank) (len : Len) : Int :=
  sumBelow (s.lengthOf len) fun i => unsigned (s.v k1 i) * unsigned (s.v k2 i)

end Sys2Proof.Machine
end

