-- ==== Sys2Proof/Machine/Flags.lean ====
section
/-! DEFINITION. Every flag of the block: `LOCKED`, the fault codes and the halted view of `FAULT`, the `STATUS` view,
the decision that QDEC writes to `BIT`, and the pin `fault_o` (spec/10_state.md rules R24, R29, R30, R32). -/

namespace Sys2Proof.Machine

/-- `LOCKED <- 1`, the end of every compute command (R29, R91). -/
def setLocked (s : State) : State := { s with locked := true }

/-- The `FAULT` value of a cause: PARAM 1, CONTRACT 2, ILLEGAL 4 (R140). -/
def faultCode : FaultCause → BitVec 3
  | .param => 1#3
  | .contract => 2#3
  | .illegal => 4#3

/-- The block is halted exactly when `FAULT ≠ 0` (R30, R145). -/
def State.halted (s : State) : Bool := decide (s.fault ≠ 0#3)

/-- The level output pin `fault_o` (R51, R150). -/
def State.faultPin (s : State) : Bool := s.halted

/-- The `STATUS` word: bit 0 `LOCKED`, bit 1 `HALTED`, bits 31:2 zero (R32). -/
def State.status (s : State) : Word :=
  BitVec.ofNat 32 ((if s.locked then 1 else 0) + 2 * (if s.halted then 1 else 0))

/-- QDEC's decision on `raw` under modulus `q`: 0 when `raw` is strictly nearer to 0 round the circle than to
`floor(q/2)`, else 1, ties included (R131). -/
def decideBit (raw q : Nat) : BitVec 1 :=
  let dist0 : Int := min (raw : Int) ((q : Int) - raw)
  let distHalf : Int := |(raw : Int) - (q / 2 : Nat)|
  if dist0 < distHalf then 0#1 else 1#1

end Sys2Proof.Machine
end

