-- ==== Sys2Proof/Machine/Ops.lean ====
section
/-! DEFINITION. The shared operations that change the state: writing an entry and a vector, fault entry (the block's
one exception mechanism, spec/60_exceptions.md rule R144), and reset, the only way out of a fault (rules R146, R171). -/

namespace Sys2Proof.Machine

/-- The canonical form of the storage image: addresses strictly rising, no entry equal to what an unlisted address
reads as. -/
abbrev MemoryWf (m : Memory) : Prop :=
  m.Pairwise (fun x y => x.1 < y.1) ∧ ∀ c ∈ m, c.2 ≠ Config.unlistedByte

/-- Write one byte of the storage image, keeping the canonical form. -/
def writeByte : Memory → Nat → Byte → Memory
  | [], a, x => if x = Config.unlistedByte then [] else [(a, x)]
  | (b, v) :: rest, a, x =>
    if a < b then (if x = Config.unlistedByte then (b, v) :: rest else (a, x) :: (b, v) :: rest)
    else if a = b then (if x = Config.unlistedByte then rest else (a, x) :: rest)
    else (b, v) :: writeByte rest a x

/-- Write the entry at port word address `a`: its low byte at `2·a`, its high byte at `2·a + 1` (assumption log,
entry 1). -/
def writeEntry (m : Memory) (a : Nat) (e : Entry) : Memory :=
  writeByte (writeByte m (2 * a) (e.extractLsb' 0 8)) (2 * a + 1) (e.extractLsb' 8 8)

/-- `V[k][i] <- f(i)` for every `i < len`. The function `f` is formed from the state before the command, so all reads
precede all writes (R20). -/
def writeVector (m : Memory) (k : Bank) : Nat → (Nat → Entry) → Memory
  | 0, _ => m
  | len + 1, f => writeEntry (writeVector m k len f) (bankAddr k len) (f len)

/-- `s` with `V[k][0..len−1]` written from `f`. -/
def State.withVector (s : State) (k : Bank) (len : Nat) (f : Nat → Entry) : State :=
  { s with mem := writeVector s.mem k len f }

/-- `s` with the entry at port word address `a` set to `e`. -/
def State.withEntry (s : State) (a : Nat) (e : Entry) : State := { s with mem := writeEntry s.mem a e }

/-- `raise Fault(code)` inside `Exec(w)`: `FAULT <- code`, `FCMD <- w`, and nothing else changes; the command ends and
the block is halted (R144, R145). There is no handler, no saved context and no mode. -/
def raiseFault (c : FaultCause) (w : Word) (s : State) : Host.Outcome State Fault Refusal :=
  .next { s with fault := faultCode c, fcmd := w }

/-- `Reset()`: every element of rule R20 to its reset value (R171, R172). It is also the only return from a fault
(R146). The host's side of the port is not the block's to clear. -/
def resetBlock (s : State) : State := { State.reset with pending := s.pending, rsp := s.rsp }

end Sys2Proof.Machine
end

