-- ==== Sys2Proof/Machine/Configuration.lean ====
section
/-! DEFINITION. The configuration commands NOP, SETN, SETQ (spec/40_config.md rules R100 to R102). A fault records the
command's own word, which for a decoded command is `encode` of it. -/

namespace Sys2Proof.Machine

/-- NOP: nothing (R100). -/
def execNop (s : State) : Host.Outcome State Fault Refusal := .next s

/-- SETN imm: lock check, then range check, then `N <- imm` (R101, R148). -/
def execSetn (imm : BitVec 16) (s : State) : Host.Outcome State Fault Refusal :=
  if s.locked then raiseFault .illegal (encode (.setn imm)) s
  else if imm.toNat < 1 ∨ Config.nMax < imm.toNat then raiseFault .param (encode (.setn imm)) s
  else .next { s with n := BitVec.ofNat 9 imm.toNat }

/-- SETQ imm: lock check, then range check, then `Q <- imm` (R102, R148). -/
def execSetq (imm : BitVec 16) (s : State) : Host.Outcome State Fault Refusal :=
  if s.locked then raiseFault .illegal (encode (.setq imm)) s
  else if imm.toNat < 2 then raiseFault .param (encode (.setq imm)) s
  else .next { s with q := imm }

end Sys2Proof.Machine
end

