-- ==== Sys2Proof/Machine/DotProduct.lean ====
section
/-! DEFINITION. The DOT unit: DOT, DOTADD, DOTSUB (spec/42_dot.md rules R120 to R123). -/

namespace Sys2Proof.Machine

/-- DOT vs1, vs2, len: `S <- (Σ_{k<len} V[vs1][k]·V[vs2][k]) mod Q` (R120). -/
def execDot (vs1 vs2 : Bank) (len : Len) (s : State) : Host.Outcome State Fault Refusal :=
  .next (setLocked { s with s := residue (s.dotSum vs1 vs2 len) s.valQ })

/-- DOTADD vs1, vs2, len: `S <- (Σ_{k<len} V[vs1][k]·V[vs2][k] + S) mod Q` (R121). -/
def execDotadd (vs1 vs2 : Bank) (len : Len) (s : State) : Host.Outcome State Fault Refusal :=
  .next (setLocked { s with s := residue (s.dotSum vs1 vs2 len + unsigned s.s) s.valQ })

/-- DOTSUB vs1, vs2, len: `S <- (S − Σ_{k<len} V[vs1][k]·V[vs2][k]) mod Q` (R122). -/
def execDotsub (vs1 vs2 : Bank) (len : Len) (s : State) : Host.Outcome State Fault Refusal :=
  .next (setLocked { s with s := residue (unsigned s.s - s.dotSum vs1 vs2 len) s.valQ })

end Sys2Proof.Machine
end

