-- ==== Sys2Proof/Machine/MatrixVector.lean ====
section
/-! DEFINITION. The MVM unit: MVM, MVMA, MVMT (spec/41_mvm.md rules R110 to R113). A term whose destination is its
source is not a command: its word raises ILLEGAL, as decoding it does (R113). -/

namespace Sys2Proof.Machine

/-- MVM vd, vs1: `V[vd][i] <- (Σ_{j<N} A[i][j]·V[vs1][j]) mod Q` for `i < M` (R110). -/
def execMvm (vd vs1 : Bank) (s : State) : Host.Outcome State Fault Refusal :=
  if vd = vs1 then raiseFault .illegal (encode (.mvm vd vs1)) s
  else .next (setLocked (s.withVector vd s.valM fun i => residue (s.rowSum vs1 i) s.valQ))

/-- MVMA vd, vs1, vs2: `V[vd][i] <- (Σ_{j<N} A[i][j]·V[vs1][j] + signed16(V[vs2][i])) mod Q` for `i < M` (R111). -/
def execMvma (vd vs1 vs2 : Bank) (s : State) : Host.Outcome State Fault Refusal :=
  if vd = vs1 then raiseFault .illegal (encode (.mvma vd vs1 vs2)) s
  else .next (setLocked (s.withVector vd s.valM fun i =>
    residue (s.rowSum vs1 i + signed16 (s.v vs2 i)) s.valQ))

/-- MVMT vd, vs1: `V[vd][j] <- (Σ_{i<M} A[i][j]·V[vs1][i]) mod Q` for `j < N` (R112). -/
def execMvmt (vd vs1 : Bank) (s : State) : Host.Outcome State Fault Refusal :=
  if vd = vs1 then raiseFault .illegal (encode (.mvmt vd vs1)) s
  else .next (setLocked (s.withVector vd s.valN fun j => residue (s.colSum vs1 j) s.valQ))

end Sys2Proof.Machine
end

