-- ==== Sys2Proof/Machine/Quantizer.lean ====
section
/-! DEFINITION. The QNT unit: QENC, QDEC (spec/43_quantizer.md rules R130, R131). -/

namespace Sys2Proof.Machine

/-- QENC imm: an immediate above 1 raises CONTRACT; else `S <- imm · floor(Q/2)` (R130). -/
def execQenc (imm : BitVec 16) (s : State) : Host.Outcome State Fault Refusal :=
  if 1 < imm.toNat then raiseFault .contract (encode (.qenc imm)) s
  else .next (setLocked { s with s := BitVec.ofNat 16 (imm.toNat * s.half) })

/-- QDEC: `S ≥ Q` raises CONTRACT; else `BIT` is the decision on `S` (R131). -/
def execQdec (s : State) : Host.Outcome State Fault Refusal :=
  if s.valQ ≤ s.s.toNat then raiseFault .contract (encode .qdec) s
  else .next (setLocked { s with bit := decideBit s.s.toNat s.valQ })

end Sys2Proof.Machine
end

