-- ==== Sys2Proof/Machine/Dispatch.lean ====
section
/-! DEFINITION. The dispatch of rule R91: one arm per command, each a call of that command's meaning. -/

namespace Sys2Proof.Machine

def exec (i : Instr) (s : State) : Host.Outcome State Fault Refusal :=
  match i with
  -- configuration (spec/40_config.md)
  | .nop => Sys2Proof.Machine.execNop s
  | .setn imm => Sys2Proof.Machine.execSetn imm s
  | .setq imm => Sys2Proof.Machine.execSetq imm s
  -- MVM unit (spec/41_mvm.md)
  | .mvm vd vs1 => Sys2Proof.Machine.execMvm vd vs1 s
  | .mvma vd vs1 vs2 => Sys2Proof.Machine.execMvma vd vs1 vs2 s
  | .mvmt vd vs1 => Sys2Proof.Machine.execMvmt vd vs1 s
  -- DOT unit (spec/42_dot.md)
  | .dot vs1 vs2 len => Sys2Proof.Machine.execDot vs1 vs2 len s
  | .dotadd vs1 vs2 len => Sys2Proof.Machine.execDotadd vs1 vs2 len s
  | .dotsub vs1 vs2 len => Sys2Proof.Machine.execDotsub vs1 vs2 len s
  -- QNT unit (spec/43_quantizer.md)
  | .qenc imm => Sys2Proof.Machine.execQenc imm s
  | .qdec => Sys2Proof.Machine.execQdec s

end Sys2Proof.Machine
end

