-- ==== Sys2Proof/Machine/Port.lean ====
section
/-! DEFINITION. The host port: the two transactions of spec/20_memory.md rules R58 and R59, the execution of a command
word (spec/30_encoding.md rule R91), and the response pins. -/

namespace Sys2Proof.Machine

/-- The answer `err = 0` with read data. -/
def dataResponse (d : Word) : Response := { data := d, err := false }

/-- The answer of a write that is done: `err = 0`, data 0 (R51). -/
def doneResponse : Response := { data := 0#32, err := false }

/-- The answer of a refused transaction: `err = 1`, data 0 (R51, R60). -/
def errorResponse : Response := { data := 0#32, err := true }

/-- What a read of a register returns, zero-extended to 32 bits (R54). -/
def readReg (s : State) : PortReg → Word
  | .cmd => 0#32
  | .status => s.status
  | .fault => s.fault.setWidth 32
  | .fcmd => s.fcmd
  | .ctrl => 0#32
  | .n => s.n.setWidth 32
  | .m => BitVec.ofNat 32 s.valM
  | .q => s.q.setWidth 32
  | .half => BitVec.ofNat 32 s.half
  | .s => s.s.setWidth 32
  | .bit => s.bit.setWidth 32

/-- `PortRead(addr)`: total, and it changes no state (R58). -/
def portRead (addr : Addr) (s : State) : Response :=
  match targetOf addr with
  | .reg r => dataResponse (readReg s r)
  | .bank k i => dataResponse ((s.v k i).setWidth 32)
  | .matrix i j => dataResponse ((s.a i j).setWidth 32)
  | .unmapped => errorResponse

/-- `s` with the response of its transaction on the pins. -/
def respond (r : Response) (s : State) : State := { s with rsp := some r }

/-- `Exec(w)` (R91): decode, then run the command's rule, or raise ILLEGAL with the whole word in `FCMD`. -/
def execWord (w : Word) (s : State) : Host.Outcome State Fault Refusal :=
  match decode w with
  | .command i => exec i s
  | .illegal _ => raiseFault .illegal w s

/-- The answer of a CMD write: `err = 1` exactly when the command faulted (R59). -/
def answerCommand (o : Host.Outcome State Fault Refusal) : Host.Outcome State Fault Refusal :=
  match o with
  | .next s => .next (respond (if s.halted then errorResponse else doneResponse) s)
  | .fault r => .fault r
  | .refused r => .refused r

/-- What a write to CTRL does: reset when bit 0 is 1, else nothing; bits 31:1 are ignored (R54, R170). -/
def writeCtrl (data : Word) (s : State) : State :=
  if data.getLsbD 0 then resetBlock s else s

/-- A write to CTRL (R59). -/
def portWriteCtrl (data : Word) (s : State) : Host.Outcome State Fault Refusal :=
  .next (respond doneResponse (writeCtrl data s))

/-- A write to anything but CTRL while the block is not halted (R59). Entries and `S` take `data[15:0]` (R57). -/
def portWriteRunning (t : Target) (data : Word) (s : State) : Host.Outcome State Fault Refusal :=
  match t with
  | .reg .cmd => answerCommand (execWord data s)
  | .reg .s => .next (respond doneResponse { s with s := data.setWidth 16 })
  | .bank k i => .next (respond doneResponse (s.withEntry (bankAddr k i) (data.setWidth 16)))
  | .matrix i j => .next (respond doneResponse (s.withEntry (matrixAddr i j) (data.setWidth 16)))
  | .reg .ctrl => portWriteCtrl data s
  | .reg .status | .reg .fault | .reg .fcmd | .reg .n | .reg .m | .reg .q | .reg .half | .reg .bit
  | .unmapped => .next (respond errorResponse s)

/-- `PortWrite(addr, data)`: total. CTRL works in every state; while halted every other write is refused and changes
nothing (R59, R145). -/
def portWrite (addr : Addr) (data : Word) (s : State) : Host.Outcome State Fault Refusal :=
  if targetOf addr = .reg .ctrl then portWriteCtrl data s
  else if s.halted then .next (respond errorResponse s)
  else portWriteRunning (targetOf addr) data s

/-- One host transaction, from acceptance to response (R52). -/
def runTransaction (t : Transaction) (s : State) : Host.Outcome State Fault Refusal :=
  match t with
  | .read addr => .next (respond (portRead addr s) s)
  | .write addr data => portWrite addr data s

/-- A pulse of `rst_n`: the reset state, whatever was in progress, and no response (R148, R170). -/
def hardReset (s : State) : State := { resetBlock s with rsp := none }

/-- What one input does (R52). -/
def acceptInput (i : Input) (s : State) : Host.Outcome State Fault Refusal :=
  match i with
  | .transaction t => runTransaction t s
  | .hardReset _ => .next (hardReset s)

/-- No transaction is presented: all state survives idling, and no response is present (R51, R154). -/
def idle (s : State) : State := { s with rsp := none }

/-- One step: the block takes the next input the host presents, or idles. -/
def nextInput (s : State) : Host.Outcome State Fault Refusal :=
  match s.pending with
  | [] => .next (idle s)
  | i :: rest => acceptInput i { s with pending := rest }

/-- The host presents `i` before everything it was going to present. -/
def presentInput (i : Input) (s : State) : State := { s with pending := i :: s.pending }

/-- A command as the host issues it: a write of its word to CMD (R89). -/
def commandWrite (w : Word) : Input := .transaction (.write (regAddr .cmd) w)

/-- The output pin `rsp_valid` (R51). -/
def State.rspValidPin (s : State) : Bool := s.rsp.isSome

end Sys2Proof.Machine
end

