-- ==== Sys2Proof/Machine/Step.lean ====
section
/-! DEFINITION. One step of the machine: one whole host transaction, one reset, or an idle step (spec/20_memory.md rule
R52), and how the host of the model places a command word where the next step takes it. -/

namespace Sys2Proof.Machine

/-- One step (R52). -/
def step (s : State) : Host.Outcome State Fault Refusal := nextInput s

/-- `s` where the next thing the host presents is a write of the `nbits`-bit word `w` to CMD. Commands are not fetched
from memory (R35, R68), so nothing else changes. -/
def State.withFetchWord (s : State) (nbits w : Nat) : State :=
  presentInput (commandWrite (BitVec.ofNat 32 (w % 2 ^ nbits))) s

end Sys2Proof.Machine
end

