-- ==== Sys2Proof/Machine/HostScript.lean ====
section
/-! DEFINITION. The host's side: the script notation of spec/30_encoding.md rule R89 and the host sequences of
spec/70_reset_and_hazards.md rules R174 to R177, as lists of inputs for `State.pending`. They are what a host
presents, not part of the block; the bank convention is rule R37's. The random draws are the caller's (rule R3). -/

namespace Sys2Proof.Machine

/-- `WR addr, data` (R89). -/
def writeInput (addr : Nat) (data : Word) : Input := .transaction (.write (BitVec.ofNat 18 addr) data)

/-- `RD addr` (R89). -/
def readInput (addr : Nat) : Input := .transaction (.read (BitVec.ofNat 18 addr))

/-- A bare command line (R89). -/
def commandInput (i : Instr) : Input := commandWrite (encode i)

/-- `RESET` as a write to CTRL (R89). -/
def softResetInput : Input := .transaction (.write (regAddr .ctrl) 1#32)

/-- A signed noise value as the host writes it: 32-bit two's complement, of which bits 15:0 are stored (R57, R175). -/
def noiseWord (e : Int) : Word := BitVec.ofInt 32 e

/-- Write `xs` to consecutive word addresses from `addr` on. -/
def writeInputs (addr : Nat) : List Word → List Input
  | [] => []
  | x :: xs => writeInput addr x :: writeInputs (addr + 1) xs

/-- Read `len` consecutive word addresses from `addr` on. -/
def readInputs (addr : Nat) : Nat → List Input
  | 0 => []
  | len + 1 => readInput addr :: readInputs (addr + 1) len

/-- Write the rows of a matrix from row `i` on (R56). -/
def writeMatrixInputs (i : Nat) : List (List Word) → List Input
  | [] => []
  | row :: rows => writeInputs (matrixAddr i 0) row ++ writeMatrixInputs (i + 1) rows

/-- Construction: `SETN n`, `SETQ q` (R174). -/
def constructScript (n q : BitVec 16) : List Input := [commandInput (.setn n), commandInput (.setq q)]

/-- Key generation from drawn `s`, `A`, `e`; the public vector has `2·|s|` entries (R175). -/
def generateKeysScript (s : List Word) (a : List (List Word)) (e : List Int) : List Input :=
  writeInputs (bankAddr .v0 0) s ++ writeMatrixInputs 0 a ++ writeInputs (bankAddr .v1 0) (e.map noiseWord) ++
    [commandInput (.mvma .v2 .v0 .v1)] ++ readInputs (bankAddr .v2 0) (2 * s.length)

/-- Encryption of `bit` with a drawn selector `r`, for dimension `n` (R176). -/
def encryptBitScript (r : List Word) (bit : BitVec 16) (n : Nat) : List Input :=
  writeInputs (bankAddr .v1 0) r ++
    [commandInput (.mvmt .v3 .v1), commandInput (.qenc bit), commandInput (.dotadd .v2 .v1 .m)] ++
    readInputs (bankAddr .v3 0) n ++ [readInput (regAddr .s).toNat]

/-- Decryption of the ciphertext `(u, v)` (R177). -/
def decryptBitScript (u : List Word) (v : Word) : List Input :=
  writeInputs (bankAddr .v3 0) u ++
    [writeInput (regAddr .s).toNat v, commandInput (.dotsub .v0 .v3 .n), commandInput .qdec,
      readInput (regAddr .bit).toNat]

end Sys2Proof.Machine
end

