-- ==== Sys2Proof/Safety.lean ====
section
/-! DEFINITION. The words claims are stated in: the nine architectural elements alone, the invariants of
spec/10_state.md rule R40, the fault a command reports (spec/60_exceptions.md rule R148), the states a host can drive
the block to, and a safe step. -/

namespace Sys2Proof.Machine

/-- The nine elements of rule R20 alone: the state with the model's own port fields emptied. -/
def State.arch (s : State) : State := { s with pending := [], rsp := none }

/-- A byte address of the storage image that belongs to a bank or to the matrix (R53). -/
abbrev MappedByte (b : Nat) : Prop :=
  (2 * 0x00800 ≤ b ∧ b < 2 * 0x01000) ∨ (2 * 0x20000 ≤ b ∧ b < 2 * 0x40000)

/-- The invariants of rule R40 that the field widths do not already give, and the form of the model's storage image:
canonical, with nothing listed outside the banks and the matrix. -/
structure State.Inv (s : State) : Prop where
  /-- `1 ≤ N` (R25, R40). -/
  one_le_n : 1 ≤ s.valN
  /-- `N ≤ 256` (R25, R40). -/
  n_le : s.valN ≤ Config.nMax
  /-- `2 ≤ Q` (R26, R40). -/
  two_le_q : 2 ≤ s.valQ
  /-- `FAULT` is one of 0, 1, 2, 4 (R30, R40). -/
  fault_mem : s.fault = 0#3 ∨ ∃ c, s.fault = faultCode c
  /-- `FAULT = 0 → FCMD = 0` (R31, R40). -/
  fcmd_zero : s.fault = 0#3 → s.fcmd = 0#32
  /-- The storage image is canonical. -/
  mem_wf : MemoryWf s.mem
  /-- Only bank and matrix bytes are listed. -/
  mem_mapped : ∀ c ∈ s.mem, MappedByte c.1

/-- The fault a command reports when it is executed, in the order of rule R148: `vd = vs1`, then the lock, then the
value check; none when it completes (R141 to R143). -/
def faultOf (i : Instr) (s : State) : Option FaultCause :=
  match i with
  | .nop => none
  | .setn imm =>
      if s.locked then some .illegal
      else if imm.toNat = 0 ∨ 256 < imm.toNat then some .param else none
  | .setq imm =>
      if s.locked then some .illegal
      else if imm.toNat ≤ 1 then some .param else none
  | .mvm vd vs1 => if vd = vs1 then some .illegal else none
  | .mvma vd vs1 _ => if vd = vs1 then some .illegal else none
  | .mvmt vd vs1 => if vd = vs1 then some .illegal else none
  | .dot _ _ _ => none
  | .dotadd _ _ _ => none
  | .dotsub _ _ _ => none
  | .qenc imm => if 2 ≤ imm.toNat then some .contract else none
  | .qdec => if s.valQ ≤ s.s.toNat then some .contract else none

/-- The fault that writing the word `w` to CMD reports on a block that is not halted: decoding first, then the
command's own checks (R91, R148). -/
def reportedFault (w : Word) (s : State) : Option FaultCause :=
  match decode w with
  | .command i => faultOf i s
  | .illegal _ => some .illegal

/-- The compute commands: all but NOP, SETN and SETQ (spec/00_scope.md glossary, R29). -/
def isCompute : Instr → Bool
  | .nop => false
  | .setn _ => false
  | .setq _ => false
  | .mvm _ _ => true
  | .mvma _ _ _ => true
  | .mvmt _ _ => true
  | .dot _ _ _ => true
  | .dotadd _ _ _ => true
  | .dotsub _ _ _ => true
  | .qenc _ => true
  | .qdec => true

/-- An input that resets the block: a pulse of `rst_n`, or a write to CTRL with bit 0 set (R170). -/
def IsReset : Input → Prop
  | .hardReset _ => True
  | .transaction (.read _) => False
  | .transaction (.write addr data) => addr = regAddr .ctrl ∧ data.getLsbD 0 = true

/-- The states a host can drive the block to from reset, presenting what it likes. -/
inductive Reachable : State → Prop where
  | reset : Reachable State.reset
  | next {s t : State} (i : Input) : Reachable s → step (presentInput i s) = .next t → Reachable t

/-- A safe step: it gives a next state that is not halted, and a transaction it accepted was not refused. -/
def SafeStep (s : State) : Prop :=
  ∃ t, step s = .next t ∧ t.halted = false ∧ ∀ r, t.rsp = some r → r.err = false

end Sys2Proof.Machine
end

