-- ==== Sys2Proof/Certificates/Slice0/Obligations.lean ====
section
/-! DEFINITION. The statements for the provers, from the numbered rules of spec/. Sums are finite sums over
`Finset.range`, entries are read as numbers, so that a statement says what the rule says without the model's own
arithmetic helpers. `readEntry m a` for every natural number `a` covers every byte of the storage image: entry `a` is
the bytes `2·a` and `2·a + 1`. -/

open Sys2Proof Sys2Proof.Machine

/-! ### Reset and the invariants -/

/-- R171: `Reset()` sets every element to its reset value, for whatever state it starts from; the derived views. -/
def Obligations.ResetSetsEveryElement : Prop :=
  ∀ s : State,
    (resetBlock s).n = 128#9 ∧ (resetBlock s).q = 2048#16 ∧ (resetBlock s).s = 0#16 ∧ (resetBlock s).bit = 0#1 ∧
    (resetBlock s).locked = false ∧ (resetBlock s).fault = 0#3 ∧ (resetBlock s).fcmd = 0#32 ∧
    (∀ k i, (resetBlock s).v k i = 0#16) ∧ (∀ i j, (resetBlock s).a i j = 0#16) ∧
    (resetBlock s).valM = 256 ∧ (resetBlock s).half = 1024 ∧ (resetBlock s).status = 0#32 ∧
    (resetBlock s).faultPin = false ∧ State.reset = (resetBlock s).arch

/-- R170: soft reset (a write to CTRL with bit 0 set) and hard reset (the pin, whatever it abandons) have the same
effect in every state, halted or not; the soft one is answered `err = 0`, the hard one gives no answer. -/
def Obligations.SoftAndHardResetAgree : Prop :=
  ∀ (s : State) (data : Word) (abandoned : Option Transaction), data.getLsbD 0 = true →
    ∃ t u, step (presentInput (.transaction (.write 0x00004#18 data)) s) = .next t ∧
      step (presentInput (.hardReset abandoned) s) = .next u ∧
      t.arch = State.reset ∧ u.arch = State.reset ∧ t.rsp = some ⟨0#32, false⟩ ∧ u.rsp = none

/-- R40 at reset, with the canonical form of the storage image. -/
def Obligations.ResetMeetsInvariants : Prop := State.reset.Inv

/-- R40: every step keeps the invariants, whatever the host presents. -/
def Obligations.StepKeepsInvariants : Prop :=
  ∀ s t : State, s.Inv → step s = .next t → t.Inv

/-- R40: the invariants hold in every state a host can drive the block to. -/
def Obligations.ReachableStatesMeetR40 : Prop :=
  ∀ s : State, Reachable s →
    1 ≤ s.n.toNat ∧ s.n.toNat ≤ 256 ∧ 2 ≤ s.q.toNat ∧ s.q.toNat ≤ 65535 ∧ 2 ≤ s.valM ∧ s.valM ≤ 512 ∧
    1 ≤ s.half ∧ s.half ≤ 32767 ∧
    (s.fault = 0#3 ∨ s.fault = 1#3 ∨ s.fault = 2#3 ∨ s.fault = 4#3) ∧ (s.fault = 0#3 → s.fcmd = 0#32) ∧
    s.s.toNat < 2 ^ 16 ∧ (∀ k i, (s.v k i).toNat < 2 ^ 16) ∧ (∀ i j, (s.a i j).toNat < 2 ^ 16) ∧
    (s.bit = 0#1 ∨ s.bit = 1#1)

/-! ### The step -/

/-- R59, R52, R186: a step always gives a next state, takes exactly one input, and answers the transaction it took. -/
def Obligations.EveryStepAnswers : Prop :=
  ∀ s : State, ∃ t, step s = .next t ∧ t.pending = s.pending.tail ∧
    (∀ tr rest, s.pending = .transaction tr :: rest → ∃ r, t.rsp = some r) ∧
    (∀ ab rest, s.pending = .hardReset ab :: rest → t.rsp = none)

/-- R154: an idle block keeps all its state; that the step without a transaction empties the response is the model's
choice (assumption log, entry 3). -/
def Obligations.IdleStepKeepsState : Prop :=
  ∀ s : State, s.pending = [] → step s = .next { s with rsp := none }

/-- R59, R91: a CMD write of a word that decodes to `i`, on a block that is not halted, is exec of `i`; the step drops
the input it took and adds the answer, `err = 1` exactly when the command faulted. -/
def Obligations.StepRunsDecodedCommand : Prop :=
  ∀ (s t : State) (w : Word) (i : Instr) (rest : List Input),
    s.pending = .transaction (.write 0x00000#18 w) :: rest → s.fault = 0#3 → decode w = .command i →
    exec i { s with pending := rest } = .next t →
    step s = .next { t with rsp := some ⟨0#32, decide (t.fault ≠ 0#3)⟩ }

/-- The model's placing of a command word (assumption log, entry 4): the next step after `withFetchWord` is the CMD
write of that word. -/
def Obligations.FetchWordIsNextCommand : Prop :=
  ∀ (s t : State) (nbits w : Nat) (i : Instr), s.fault = 0#3 → decodeTableWord nbits w = some i →
    exec i s = .next t →
    step (s.withFetchWord nbits w) = .next { t with rsp := some ⟨0#32, decide (t.fault ≠ 0#3)⟩ }

/-! ### Encoding -/

/-- R85, R88: every command the encoding admits decodes to itself. -/
def Obligations.DecodeOfEncodeIsIdentity : Prop :=
  ∀ i : Instr, i.WellFormed → decode (encode i) = .command i

/-- R85, R88: a word that decodes to a command is that command's only word, and the command is well formed. -/
def Obligations.EncodeOfDecodeIsIdentity : Prop :=
  ∀ (w : Word) (i : Instr), decode w = .command i → i.WellFormed ∧ encode i = w

/-- R86: a must-be-zero bit that is 1, in any format, makes the word Illegal. -/
def Obligations.MustBeZeroBitMakesIllegal : Prop :=
  ∀ w : Word,
    ((bits w.toNat 31 24 ∈ [0x00, 0x31] ∧ bits w.toNat 23 0 ≠ 0) ∨
      (bits w.toNat 31 24 ∈ [0x01, 0x02, 0x30] ∧ bits w.toNat 23 16 ≠ 0) ∨
      (bits w.toNat 31 24 ∈ [0x10, 0x12] ∧ bits w.toNat 19 0 ≠ 0) ∨
      (bits w.toNat 31 24 = 0x11 ∧ bits w.toNat 17 0 ≠ 0) ∨
      (bits w.toNat 31 24 ∈ [0x20, 0x21, 0x22] ∧
        (bits w.toNat 23 22 ≠ 0 ∨ bits w.toNat 17 17 ≠ 0 ∨ bits w.toNat 15 0 ≠ 0))) →
    ∃ why, decode w = .illegal why

/-- R87: every `op` outside the 11 of rule R84 is Illegal, and NOP's word is the only one that decodes to NOP. -/
def Obligations.UndefinedOpcodesAreIllegal : Prop :=
  (∀ w : Word,
    bits w.toNat 31 24 ∉ [0x00, 0x01, 0x02, 0x10, 0x11, 0x12, 0x20, 0x21, 0x22, 0x30, 0x31] →
    ∃ why, decode w = .illegal why) ∧
  ∀ w : Word, decode w = .command .nop ↔ w = 0x00000000#32

/-- R90: the worked encodings and the worked illegal words. -/
def Obligations.WorkedEncodings : Prop :=
  encode (.setn 2#16) = 0x01000002#32 ∧ encode (.setq 17#16) = 0x02000011#32 ∧
  encode (.setq 2048#16) = 0x02000800#32 ∧ encode (.mvm .v3 .v0) = 0x10C00000#32 ∧
  encode (.mvma .v2 .v0 .v1) = 0x11840000#32 ∧ encode (.mvmt .v3 .v1) = 0x12D00000#32 ∧
  encode (.dot .v0 .v3 .n) = 0x200C0000#32 ∧ encode (.dotadd .v2 .v1 .m) = 0x21250000#32 ∧
  encode (.dotsub .v0 .v3 .n) = 0x220C0000#32 ∧ encode (.qenc 0#16) = 0x30000000#32 ∧
  encode (.qenc 1#16) = 0x30000001#32 ∧ encode .qdec = 0x31000000#32 ∧
  (∀ w ∈ [0x10500000#32, 0x00000001#32, 0x31000001#32, 0x20020000#32, 0x20400000#32, 0x30010000#32, 0x03000000#32,
    0xFFFFFFFF#32], ∃ why, decode w = .illegal why)

/-- R85: a word of each command written out from its encoding decodes to it. -/
def Obligations.WrittenWordsDecode : Prop :=
  decode 0x00000000#32 = .command .nop ∧ decode 0x01000080#32 = .command (.setn 128#16) ∧
  decode 0x02000800#32 = .command (.setq 2048#16) ∧ decode 0x10E00000#32 = .command (.mvm .v3 .v2) ∧
  decode 0x111C0000#32 = .command (.mvma .v0 .v1 .v3) ∧ decode 0x12100000#32 = .command (.mvmt .v0 .v1) ∧
  decode 0x203D0000#32 = .command (.dot .v3 .v3 .m) ∧ decode 0x21250000#32 = .command (.dotadd .v2 .v1 .m) ∧
  decode 0x220C0000#32 = .command (.dotsub .v0 .v3 .n) ∧ decode 0x30000002#32 = .command (.qenc 2#16) ∧
  decode 0x31000000#32 = .command .qdec

/-! ### Configuration commands -/

/-- R100: NOP does nothing: as a command, as the CMD write of its word, and while halted, where the write is refused
like any command's; every other word with `op` = 0 is Illegal. -/
def Obligations.NopDoesNothing : Prop :=
  (∀ s : State, exec .nop s = .next s) ∧
  (∀ s : State, step (presentInput (.transaction (.write 0x00000#18 0x00000000#32)) s) =
    .next { s with rsp := some ⟨0#32, decide (s.fault ≠ 0#3)⟩ }) ∧
  (∀ w : Word, bits w.toNat 31 24 = 0x00 → bits w.toNat 23 0 ≠ 0 → ∃ why, decode w = .illegal why)

/-- R101: SETN in every state: ILLEGAL when locked, checked first; else PARAM out of range; else `N <- imm` and
nothing else, `M` following. The word is `0x01000000 + imm`. -/
def Obligations.SetnWritesNOrFaults : Prop :=
  ∀ (s : State) (imm : BitVec 16),
    decode (BitVec.ofNat 32 (0x01000000 + imm.toNat)) = .command (.setn imm) ∧
    (s.locked = true → exec (.setn imm) s =
      .next { s with fault := 4#3, fcmd := BitVec.ofNat 32 (0x01000000 + imm.toNat) }) ∧
    (s.locked = false → (imm.toNat = 0 ∨ 256 < imm.toNat) → exec (.setn imm) s =
      .next { s with fault := 1#3, fcmd := BitVec.ofNat 32 (0x01000000 + imm.toNat) }) ∧
    (s.locked = false → 1 ≤ imm.toNat → imm.toNat ≤ 256 →
      ∃ x : BitVec 9, exec (.setn imm) s = .next { s with n := x } ∧ x.toNat = imm.toNat ∧
        State.valM { s with n := x } = 2 * imm.toNat)

/-- R102: SETQ in every state: ILLEGAL when locked, checked first; else PARAM for 0 and 1; else `Q <- imm` and nothing
else, `HALF` following. The word is `0x02000000 + imm`. -/
def Obligations.SetqWritesQOrFaults : Prop :=
  ∀ (s : State) (imm : BitVec 16),
    decode (BitVec.ofNat 32 (0x02000000 + imm.toNat)) = .command (.setq imm) ∧
    (s.locked = true → exec (.setq imm) s =
      .next { s with fault := 4#3, fcmd := BitVec.ofNat 32 (0x02000000 + imm.toNat) }) ∧
    (s.locked = false → imm.toNat ≤ 1 → exec (.setq imm) s =
      .next { s with fault := 1#3, fcmd := BitVec.ofNat 32 (0x02000000 + imm.toNat) }) ∧
    (s.locked = false → 2 ≤ imm.toNat →
      exec (.setq imm) s = .next { s with q := imm } ∧ State.half { s with q := imm } = imm.toNat / 2)

/-- R103: SETN and SETQ are independent: before the lock, with legal values, either order gives the same state. -/
def Obligations.ParametersSetInEitherOrder : Prop :=
  ∀ (s : State) (a b : BitVec 16), s.locked = false → 1 ≤ a.toNat → a.toNat ≤ 256 → 2 ≤ b.toNat →
    ∃ t u v, exec (.setn a) s = .next t ∧ exec (.setq b) t = .next v ∧
      exec (.setq b) s = .next u ∧ exec (.setn a) u = .next v

/-! ### The MVM unit -/

/-- R110: MVM's word, its result in every entry `i < M` of the destination, every other entry of the storage
unchanged, `LOCKED` set, and nothing else changed. -/
def Obligations.MvmComputesMatrixVector : Prop :=
  ∀ (s : State) (vd vs1 : Bank), s.Inv → vd ≠ vs1 →
    decode (BitVec.ofNat 32 (0x10000000 + bankNumber vd * 2 ^ 22 + bankNumber vs1 * 2 ^ 20)) =
      .command (.mvm vd vs1) ∧
    ∃ t, exec (.mvm vd vs1) s = .next t ∧
      (∀ i < 2 * s.n.toNat, (t.v vd i).toNat =
        (∑ j ∈ Finset.range s.n.toNat, (s.a i j).toNat * (s.v vs1 j).toNat) % s.q.toNat) ∧
      (∀ a, (∀ i < 2 * s.n.toNat, a ≠ bankAddr vd i) → readEntry t.mem a = readEntry s.mem a) ∧
      t = { s with mem := t.mem, locked := true }

/-- R111: MVMA's word, its result with the addend read as two's complement, for every addend bank (the destination and
the source among them), every other entry unchanged, `LOCKED` set, and nothing else changed. -/
def Obligations.MvmaAddsSignedAddend : Prop :=
  ∀ (s : State) (vd vs1 vs2 : Bank), s.Inv → vd ≠ vs1 →
    decode (BitVec.ofNat 32
      (0x11000000 + bankNumber vd * 2 ^ 22 + bankNumber vs1 * 2 ^ 20 + bankNumber vs2 * 2 ^ 18)) =
      .command (.mvma vd vs1 vs2) ∧
    ∃ t, exec (.mvma vd vs1 vs2) s = .next t ∧
      (∀ i < 2 * s.n.toNat, ((t.v vd i).toNat : Int) =
        (∑ j ∈ Finset.range s.n.toNat, ((s.a i j).toNat : Int) * ((s.v vs1 j).toNat : Int) + (s.v vs2 i).toInt) %
          (s.q.toNat : Int)) ∧
      (∀ a, (∀ i < 2 * s.n.toNat, a ≠ bankAddr vd i) → readEntry t.mem a = readEntry s.mem a) ∧
      t = { s with mem := t.mem, locked := true }

/-- R112: MVMT's word, its result in every entry `j < N`, every other entry unchanged (entries `N` to `2N − 1` of the
destination among them), `LOCKED` set, and nothing else changed. -/
def Obligations.MvmtComputesTransposed : Prop :=
  ∀ (s : State) (vd vs1 : Bank), s.Inv → vd ≠ vs1 →
    decode (BitVec.ofNat 32 (0x12000000 + bankNumber vd * 2 ^ 22 + bankNumber vs1 * 2 ^ 20)) =
      .command (.mvmt vd vs1) ∧
    ∃ t, exec (.mvmt vd vs1) s = .next t ∧
      (∀ j < s.n.toNat, (t.v vd j).toNat =
        (∑ i ∈ Finset.range (2 * s.n.toNat), (s.a i j).toNat * (s.v vs1 i).toNat) % s.q.toNat) ∧
      (∀ a, (∀ j < s.n.toNat, a ≠ bankAddr vd j) → readEntry t.mem a = readEntry s.mem a) ∧
      t = { s with mem := t.mem, locked := true }

/-- R113: the aliased words of MVM, MVMA and MVMT are Illegal, writing one raises ILLEGAL and changes nothing else on
a block that is not halted, and MVMA's addend is exempt. -/
def Obligations.AliasedDestinationRaisesIllegal : Prop :=
  ∀ (s : State) (d b : Bank), s.fault = 0#3 →
    (∀ w ∈ [BitVec.ofNat 32 (0x10000000 + bankNumber d * 2 ^ 22 + bankNumber d * 2 ^ 20),
        BitVec.ofNat 32 (0x11000000 + bankNumber d * 2 ^ 22 + bankNumber d * 2 ^ 20 + bankNumber b * 2 ^ 18),
        BitVec.ofNat 32 (0x12000000 + bankNumber d * 2 ^ 22 + bankNumber d * 2 ^ 20)],
      decode w = .illegal .aliased ∧
      step (presentInput (.transaction (.write 0x00000#18 w)) s) =
        .next { s with fault := 4#3, fcmd := w, rsp := some ⟨0#32, true⟩ }) ∧
    (d ≠ b → decode (encode (.mvma d b d)) = .command (.mvma d b d) ∧
      decode (encode (.mvma d b b)) = .command (.mvma d b b))

/-- R111, corner case: with an addend that is 0 in the active region MVMA leaves exactly the state MVM leaves. -/
def Obligations.MvmaWithZeroAddendIsMvm : Prop :=
  ∀ (s : State) (vd vs1 vs2 : Bank), vd ≠ vs1 → (∀ i < 2 * s.n.toNat, s.v vs2 i = 0#16) →
    ∃ t, exec (.mvma vd vs1 vs2) s = .next t ∧ exec (.mvm vd vs1) s = .next t

/-! ### The DOT unit -/

/-- R120: DOT's word, its result in `S` for both lengths, `LOCKED` set, nothing else changed (no entry of the storage
among it), and the operands commute. -/
def Obligations.DotWritesDotProduct : Prop :=
  ∀ (s : State) (vs1 vs2 : Bank) (len : Len), s.q ≠ 0#16 →
    decode (BitVec.ofNat 32
      (0x20000000 + bankNumber vs1 * 2 ^ 20 + bankNumber vs2 * 2 ^ 18 + (if len = .n then 0 else 1) * 2 ^ 16)) =
      .command (.dot vs1 vs2 len) ∧
    exec (.dot vs1 vs2 len) s = exec (.dot vs2 vs1 len) s ∧
    ∃ x : Entry, exec (.dot vs1 vs2 len) s = .next { s with s := x, locked := true } ∧
      x.toNat = (∑ k ∈ Finset.range (if len = .n then s.n.toNat else 2 * s.n.toNat),
        (s.v vs1 k).toNat * (s.v vs2 k).toNat) % s.q.toNat

/-- R121: DOTADD's word, its result with the old `S` added at its stored value, `LOCKED` set, nothing else changed. -/
def Obligations.DotaddAddsScalar : Prop :=
  ∀ (s : State) (vs1 vs2 : Bank) (len : Len), s.q ≠ 0#16 →
    decode (BitVec.ofNat 32
      (0x21000000 + bankNumber vs1 * 2 ^ 20 + bankNumber vs2 * 2 ^ 18 + (if len = .n then 0 else 1) * 2 ^ 16)) =
      .command (.dotadd vs1 vs2 len) ∧
    ∃ x : Entry, exec (.dotadd vs1 vs2 len) s = .next { s with s := x, locked := true } ∧
      x.toNat = (∑ k ∈ Finset.range (if len = .n then s.n.toNat else 2 * s.n.toNat),
        (s.v vs1 k).toNat * (s.v vs2 k).toNat + s.s.toNat) % s.q.toNat

/-- R122: DOTSUB's word, its result brought into `[0, Q)` from a negative integer, `LOCKED` set, nothing else
changed. -/
def Obligations.DotsubSubtractsFromScalar : Prop :=
  ∀ (s : State) (vs1 vs2 : Bank) (len : Len), s.q ≠ 0#16 →
    decode (BitVec.ofNat 32
      (0x22000000 + bankNumber vs1 * 2 ^ 20 + bankNumber vs2 * 2 ^ 18 + (if len = .n then 0 else 1) * 2 ^ 16)) =
      .command (.dotsub vs1 vs2 len) ∧
    ∃ x : Entry, exec (.dotsub vs1 vs2 len) s = .next { s with s := x, locked := true } ∧
      (x.toNat : Int) = ((s.s.toNat : Int) -
        ∑ k ∈ Finset.range (if len = .n then s.n.toNat else 2 * s.n.toNat),
          ((s.v vs1 k).toNat : Int) * ((s.v vs2 k).toNat : Int)) % (s.q.toNat : Int)

/-- R124: if `kb` holds `(A·s + e) mod Q`, `ku` holds `(Aᵗ·r) mod Q` and `S` holds `bit·HALF`, then DOTADD of `kb` and
`kr` followed by DOTSUB of `ks` and `ku` leaves `raw = (bit·HALF + Σ e[i]·r[i]) mod Q` in `S`. -/
def Obligations.DecryptionLeavesEncodedBitPlusNoise : Prop :=
  ∀ (s : State) (ks kb kr ku : Bank) (e : Nat → Int) (bit : Nat), s.Inv →
    (∀ i < 2 * s.n.toNat, ((s.v kb i).toNat : Int) =
      (∑ j ∈ Finset.range s.n.toNat, ((s.a i j).toNat : Int) * ((s.v ks j).toNat : Int) + e i) % (s.q.toNat : Int)) →
    (∀ j < s.n.toNat, (s.v ku j).toNat =
      (∑ i ∈ Finset.range (2 * s.n.toNat), (s.a i j).toNat * (s.v kr i).toNat) % s.q.toNat) →
    s.s.toNat = bit * (s.q.toNat / 2) →
    ∃ t u, exec (.dotadd kb kr .m) s = .next t ∧ exec (.dotsub ks ku .n) t = .next u ∧
      (u.s.toNat : Int) = ((bit * (s.q.toNat / 2) : Nat) +
        ∑ i ∈ Finset.range (2 * s.n.toNat), e i * ((s.v kr i).toNat : Int)) % (s.q.toNat : Int)

/-- R124 with R131, R185: in the same setting, for a bit 0 or 1 and noise with `2·|Σ e[i]·r[i]| < HALF`, QDEC after
DOTADD and DOTSUB returns the bit that was encrypted. -/
def Obligations.SmallNoiseDecryptsToEncryptedBit : Prop :=
  ∀ (s : State) (ks kb kr ku : Bank) (e : Nat → Int) (bit : Nat), s.Inv → bit ≤ 1 →
    (∀ i < 2 * s.n.toNat, ((s.v kb i).toNat : Int) =
      (∑ j ∈ Finset.range s.n.toNat, ((s.a i j).toNat : Int) * ((s.v ks j).toNat : Int) + e i) % (s.q.toNat : Int)) →
    (∀ j < s.n.toNat, (s.v ku j).toNat =
      (∑ i ∈ Finset.range (2 * s.n.toNat), (s.a i j).toNat * (s.v kr i).toNat) % s.q.toNat) →
    s.s.toNat = bit * (s.q.toNat / 2) →
    2 * |∑ i ∈ Finset.range (2 * s.n.toNat), e i * ((s.v kr i).toNat : Int)| < (s.q.toNat / 2 : Nat) →
    ∃ t u v, exec (.dotadd kb kr .m) s = .next t ∧ exec (.dotsub ks ku .n) t = .next u ∧ exec .qdec u = .next v ∧
      v.bit.toNat = bit

/-! ### The QNT unit -/

/-- R130: QENC's word; bit 0 or 1 writes `imm·floor(Q/2)` to `S` and sets `LOCKED`, nothing else; any other immediate
raises CONTRACT with `S` and `LOCKED` unchanged; the value written is below `Q`. -/
def Obligations.QencEncodesBitOrFaults : Prop :=
  ∀ (s : State) (imm : BitVec 16),
    decode (BitVec.ofNat 32 (0x30000000 + imm.toNat)) = .command (.qenc imm) ∧
    (2 ≤ imm.toNat → exec (.qenc imm) s =
      .next { s with fault := 2#3, fcmd := BitVec.ofNat 32 (0x30000000 + imm.toNat) }) ∧
    (imm.toNat ≤ 1 → ∃ x : Entry, exec (.qenc imm) s = .next { s with s := x, locked := true } ∧
      x.toNat = imm.toNat * (s.q.toNat / 2) ∧ (2 ≤ s.q.toNat → x.toNat < s.q.toNat))

/-- R131: QDEC's word; `S ≥ Q` raises CONTRACT with nothing else changed; else `BIT` is 0 when
`min(raw, Q − raw) < |raw − floor(Q/2)|` and 1 otherwise, `LOCKED` is set, nothing else changes. -/
def Obligations.QdecDecidesNearestOrFaults : Prop :=
  ∀ s : State,
    decode 0x31000000#32 = .command .qdec ∧
    (s.q.toNat ≤ s.s.toNat → exec .qdec s = .next { s with fault := 2#3, fcmd := 0x31000000#32 }) ∧
    (s.s.toNat < s.q.toNat → ∃ x : BitVec 1, exec .qdec s = .next { s with bit := x, locked := true } ∧
      (min (s.s.toNat : Int) (s.q.toNat - s.s.toNat) < |(s.s.toNat : Int) - (s.q.toNat / 2 : Nat)| → x = 0#1) ∧
      (|(s.s.toNat : Int) - (s.q.toNat / 2 : Nat)| ≤ min (s.s.toNat : Int) (s.q.toNat - s.s.toNat) → x = 1#1))

/-- R132: the closed form of the decision, and its consequences for a modulus `4k` and for 17, 7, 2 and 3. -/
def Obligations.QdecClosedForm : Prop :=
  ∀ s : State, s.s.toNat < s.q.toNat →
    ∃ t, exec .qdec s = .next t ∧
      (t.bit = 0#1 ↔ 2 * s.s.toNat < s.q.toNat / 2 ∨ s.q.toNat + s.q.toNat / 2 < 2 * s.s.toNat) ∧
      (t.bit = 1#1 ↔ ¬(2 * s.s.toNat < s.q.toNat / 2 ∨ s.q.toNat + s.q.toNat / 2 < 2 * s.s.toNat)) ∧
      (∀ k, s.q.toNat = 4 * k → (t.bit = 0#1 ↔ s.s.toNat < k ∨ 3 * k < s.s.toNat)) ∧
      (s.q.toNat = 17 → (t.bit = 0#1 ↔ s.s.toNat ∈ [0, 1, 2, 3, 13, 14, 15, 16])) ∧
      (s.q.toNat = 7 → (t.bit = 0#1 ↔ s.s.toNat ∈ [0, 1, 6])) ∧
      (s.q.toNat = 2 → (t.bit = 0#1 ↔ s.s.toNat = 0)) ∧ (s.q.toNat = 3 → (t.bit = 0#1 ↔ s.s.toNat = 0))

/-- R133: QENC followed at once by QDEC returns the bit, and `BIT` after QDEC is a function of `S` and `Q` alone. -/
def Obligations.EncodeThenDecideReturnsBit : Prop :=
  (∀ (s : State) (imm : BitVec 16), 2 ≤ s.q.toNat → imm.toNat ≤ 1 →
    ∃ t u, exec (.qenc imm) s = .next t ∧ exec .qdec t = .next u ∧ u.bit.toNat = imm.toNat) ∧
  (∀ s s' : State, s.s = s'.s → s.q = s'.q → s.s.toNat < s.q.toNat →
    ∃ t t', exec .qdec s = .next t ∧ exec .qdec s' = .next t' ∧ t.bit = t'.bit)

/-! ### Faults and the halted state -/

/-- R144, R148: on a block that is not halted, a CMD write whose word reports the cause `c` (decoding, then the lock,
then the value check) sets `FAULT` to the cause's code and `FCMD` to the whole word, is answered `err = 1`, and changes
nothing else. -/
def Obligations.ReportedFaultIsTakenPrecisely : Prop :=
  ∀ (s : State) (w : Word) (c : FaultCause), s.fault = 0#3 → reportedFault w s = some c →
    step (presentInput (.transaction (.write 0x00000#18 w)) s) =
      .next { s with fault := faultCode c, fcmd := w, rsp := some ⟨0#32, true⟩ }

/-- R59, R91: on a block that is not halted, a CMD write whose word reports no fault completes: `FAULT` and `FCMD` stay,
the answer is `err = 0`, and the step is a safe one. -/
def Obligations.UnreportedCommandCompletes : Prop :=
  ∀ (s : State) (w : Word), s.fault = 0#3 → reportedFault w s = none →
    SafeStep (presentInput (.transaction (.write 0x00000#18 w)) s) ∧
    ∃ t, step (presentInput (.transaction (.write 0x00000#18 w)) s) = .next t ∧
      t.fault = 0#3 ∧ t.fcmd = s.fcmd ∧ t.rsp = some ⟨0#32, false⟩

/-- R140, R149: only a CMD write whose command faults takes the block from running to halted. -/
def Obligations.OnlyFaultingCommandsHalt : Prop :=
  ∀ (s t : State) (i : Input), s.fault = 0#3 → step (presentInput i s) = .next t → t.fault ≠ 0#3 →
    ∃ w c, i = .transaction (.write 0x00000#18 w) ∧ reportedFault w s = some c ∧ t.fault = faultCode c ∧ t.fcmd = w

/-- R145, R154: while halted every write except to CTRL is refused and changes nothing, a CTRL write with bit 0 clear changes
nothing, every read is answered as usual, and an idle step leaves all state (the model's own response field is emptied:
assumption log, entry 3). -/
def Obligations.HaltedBlockIsFrozen : Prop :=
  ∀ s : State, s.fault ≠ 0#3 →
    (∀ (a : Addr) (d : Word), a ≠ 0x00004#18 →
      step (presentInput (.transaction (.write a d)) s) = .next { s with rsp := some ⟨0#32, true⟩ }) ∧
    (∀ d : Word, d.getLsbD 0 = false →
      step (presentInput (.transaction (.write 0x00004#18 d)) s) = .next { s with rsp := some ⟨0#32, false⟩ }) ∧
    (∀ a : Addr, step (presentInput (.transaction (.read a)) s) = .next { s with rsp := some (portRead a s) }) ∧
    step { s with pending := [] } = .next { s with pending := [], rsp := none }

/-- R145 to R147 with R170: from a halted state the only way out is reset, which gives the reset state; short of that,
`FAULT`, `FCMD` and all other state stay. That `FAULT` never has two bits set is `ReachableStatesMeetR40`. -/
def Obligations.OnlyResetLeavesHalt : Prop :=
  ∀ (s t : State) (i : Input), s.fault ≠ 0#3 → step (presentInput i s) = .next t →
    (IsReset i ∧ t.arch = State.reset) ∨ (¬ IsReset i ∧ t.arch = s.arch)

/-- R60: the port errors, reads and writes, in every state: they are answered `err = 1` and change nothing. -/
def Obligations.PortErrorsChangeNothing : Prop :=
  (∀ (s : State) (a : Addr) (d : Word),
    ((0x0000B ≤ a.toNat ∧ a.toNat ≤ 0x007FF) ∨ (0x01000 ≤ a.toNat ∧ a.toNat ≤ 0x1FFFF)) →
    step (presentInput (.transaction (.read a)) s) = .next { s with rsp := some ⟨0#32, true⟩ } ∧
    step (presentInput (.transaction (.write a d)) s) = .next { s with rsp := some ⟨0#32, true⟩ }) ∧
  (∀ (s : State) (a : Addr) (d : Word), a.toNat ∈ [0x1, 0x2, 0x3, 0x5, 0x6, 0x7, 0x8, 0xA] →
    step (presentInput (.transaction (.write a d)) s) = .next { s with rsp := some ⟨0#32, true⟩ }) ∧
  (∀ (s : State) (a : Addr) (d : Word), s.fault ≠ 0#3 → a.toNat ≠ 0x4 →
    step (presentInput (.transaction (.write a d)) s) = .next { s with rsp := some ⟨0#32, true⟩ })

/-! ### The port -/

/-- R58: PortRead on every address: the registers, the banks, the matrix, and the error on every other address; no
state changes. -/
def Obligations.PortReadReturnsTable : Prop :=
  ∀ (s : State) (a : Addr), ∃ r : Response,
    step (presentInput (.transaction (.read a)) s) = .next { s with rsp := some r } ∧
    (a.toNat = 0x0 ∨ a.toNat = 0x4 → r = ⟨0#32, false⟩) ∧
    (a.toNat = 0x1 → r.err = false ∧
      r.data.toNat = (if s.locked then 1 else 0) + 2 * (if s.fault ≠ 0#3 then 1 else 0)) ∧
    (a.toNat = 0x2 → r.err = false ∧ r.data.toNat = s.fault.toNat) ∧
    (a.toNat = 0x3 → r.err = false ∧ r.data = s.fcmd) ∧
    (a.toNat = 0x5 → r.err = false ∧ r.data.toNat = s.n.toNat) ∧
    (a.toNat = 0x6 → r.err = false ∧ r.data.toNat = 2 * s.n.toNat) ∧
    (a.toNat = 0x7 → r.err = false ∧ r.data.toNat = s.q.toNat) ∧
    (a.toNat = 0x8 → r.err = false ∧ r.data.toNat = s.q.toNat / 2) ∧
    (a.toNat = 0x9 → r.err = false ∧ r.data.toNat = s.s.toNat) ∧
    (a.toNat = 0xA → r.err = false ∧ r.data.toNat = s.bit.toNat) ∧
    (0x00800 ≤ a.toNat ∧ a.toNat ≤ 0x00FFF →
      r.err = false ∧ r.data.toNat = (s.v (bankOfNumber (bits a.toNat 10 9)) (bits a.toNat 8 0)).toNat) ∧
    (0x20000 ≤ a.toNat → r.err = false ∧ r.data.toNat = (s.a (bits a.toNat 16 8) (bits a.toNat 7 0)).toNat) ∧
    ((0x0000B ≤ a.toNat ∧ a.toNat ≤ 0x007FF) ∨ (0x01000 ≤ a.toNat ∧ a.toNat ≤ 0x1FFFF) → r = ⟨0#32, true⟩)

/-- R55, R56: the address of each bank entry and of each matrix entry, both ways, and where the storage
holds it, whatever `N` is. -/
def Obligations.AddressMapNamesEntries : Prop :=
  (∀ (k : Bank) (i : Nat), i < 512 →
    targetOf (BitVec.ofNat 18 (0x00800 + 0x200 * bankNumber k + i)) = .bank k i) ∧
  (∀ a : Addr, 0x00800 ≤ a.toNat → a.toNat ≤ 0x00FFF →
    targetOf a = .bank (bankOfNumber (bits a.toNat 10 9)) (bits a.toNat 8 0)) ∧
  (∀ i j : Nat, i < 512 → j < 256 → targetOf (BitVec.ofNat 18 (0x20000 + 0x100 * i + j)) = .matrix i j) ∧
  (∀ a : Addr, 0x20000 ≤ a.toNat → targetOf a = .matrix (bits a.toNat 16 8) (bits a.toNat 7 0)) ∧
  (∀ (s : State) (k : Bank) (i : Nat), s.v k i = readEntry s.mem (0x00800 + 0x200 * bankNumber k + i)) ∧
  (∀ (s : State) (i j : Nat), s.a i j = readEntry s.mem (0x20000 + 0x100 * i + j))

/-- R57, R59: a write to `S`, a bank or the matrix on a block that is not halted stores `data[15:0]`, reads back, is
answered `err = 0`, and changes no other entry and nothing else, `LOCKED` among it. -/
def Obligations.PortWriteStoresLowHalf : Prop :=
  ∀ (s : State) (d : Word), s.Inv → s.fault = 0#3 →
    (step (presentInput (.transaction (.write 0x00009#18 d)) s) =
      .next { s with s := BitVec.ofNat 16 (d.toNat % 2 ^ 16), rsp := some ⟨0#32, false⟩ }) ∧
    (∀ a : Addr, ((0x00800 ≤ a.toNat ∧ a.toNat ≤ 0x00FFF) ∨ 0x20000 ≤ a.toNat) →
      ∃ t, step (presentInput (.transaction (.write a d)) s) = .next t ∧
        readEntry t.mem a.toNat = BitVec.ofNat 16 (d.toNat % 2 ^ 16) ∧
        (∀ b, b ≠ a.toNat → readEntry t.mem b = readEntry s.mem b) ∧
        t = { s with mem := t.mem, rsp := some ⟨0#32, false⟩ } ∧
        (portRead a t).data.toNat = d.toNat % 2 ^ 16)

/-- R63: doing the same port write twice, anywhere but CMD, leaves the state that doing it once leaves. -/
def Obligations.PortWritesAreIdempotent : Prop :=
  ∀ (s t : State) (a : Addr) (d : Word), s.Inv → a ≠ 0x00000#18 →
    step (presentInput (.transaction (.write a d)) s) = .next t →
    step (presentInput (.transaction (.write a d)) t) = .next t

/-! ### What no command and no transaction does -/

/-- R29: a command sets `LOCKED` exactly when it is a compute command that completes without a fault, and never clears
it. -/
def Obligations.ComputeCommandsLock : Prop :=
  ∀ (s t : State) (i : Instr), exec i s = .next t →
    t.locked = (s.locked || (isCompute i && decide (faultOf i s = none)))

/-- R29, R179: once `LOCKED` is set, no step short of reset clears it or changes `N` or `Q`. -/
def Obligations.LockedParametersAreImmutable : Prop :=
  ∀ (s t : State) (i : Input), s.locked = true → ¬ IsReset i → step (presentInput i s) = .next t →
    t.locked = true ∧ t.n = s.n ∧ t.q = s.q

/-- R22: no command writes the matrix. -/
def Obligations.NoCommandWritesMatrix : Prop :=
  ∀ (s t : State) (c : Instr), s.Inv → exec c s = .next t →
    ∀ i < 512, ∀ j < 256, t.a i j = s.a i j

/-- R24: only QDEC and reset write `BIT`. -/
def Obligations.OnlyQdecAndResetWriteBit : Prop :=
  ∀ (s t : State) (i : Input), step (presentInput i s) = .next t → t.bit ≠ s.bit →
    IsReset i ∨ i = .transaction (.write 0x00000#18 0x31000000#32)

/-- R39: every value a command writes to a bank or to `S` is below `Q`. -/
def Obligations.CommandResultsAreResidues : Prop :=
  ∀ (s t : State) (c : Instr), s.Inv → exec c s = .next t →
    (t.s = s.s ∨ t.s.toNat < s.q.toNat) ∧
    ∀ k i, i < 512 → t.v k i = s.v k i ∨ (t.v k i).toNat < s.q.toNat

/-- R38 with R110 to R112 and R120 to R122: a command's result depends on `N`, `Q`, the active region of its operands
and, for DOTADD and DOTSUB, `S`: two states that agree on what the command reads leave the same result, whatever else
they hold. Each form asks for agreement on the entries it reads and on no other: for the DOT family, every pair of
banks and both lengths, on `k < len`. -/
def Obligations.CommandsReadOnlyActiveRegion : Prop :=
  ∀ s s' : State, s.n = s'.n → s.q = s'.q →
    (∀ vd vs1 : Bank, s.Inv → s'.Inv → vd ≠ vs1 →
      (∀ i < 2 * s.n.toNat, ∀ j < s.n.toNat, s.a i j = s'.a i j) → (∀ j < s.n.toNat, s.v vs1 j = s'.v vs1 j) →
      ∃ t t', exec (.mvm vd vs1) s = .next t ∧ exec (.mvm vd vs1) s' = .next t' ∧
        ∀ i < 2 * s.n.toNat, t.v vd i = t'.v vd i) ∧
    (∀ vd vs1 vs2 : Bank, s.Inv → s'.Inv → vd ≠ vs1 →
      (∀ i < 2 * s.n.toNat, ∀ j < s.n.toNat, s.a i j = s'.a i j) → (∀ j < s.n.toNat, s.v vs1 j = s'.v vs1 j) →
      (∀ i < 2 * s.n.toNat, s.v vs2 i = s'.v vs2 i) →
      ∃ t t', exec (.mvma vd vs1 vs2) s = .next t ∧ exec (.mvma vd vs1 vs2) s' = .next t' ∧
        ∀ i < 2 * s.n.toNat, t.v vd i = t'.v vd i) ∧
    (∀ vd vs1 : Bank, s.Inv → s'.Inv → vd ≠ vs1 →
      (∀ i < 2 * s.n.toNat, ∀ j < s.n.toNat, s.a i j = s'.a i j) → (∀ i < 2 * s.n.toNat, s.v vs1 i = s'.v vs1 i) →
      ∃ t t', exec (.mvmt vd vs1) s = .next t ∧ exec (.mvmt vd vs1) s' = .next t' ∧
        ∀ j < s.n.toNat, t.v vd j = t'.v vd j) ∧
    (∀ (vs1 vs2 : Bank) (len : Len),
      (∀ k < (if len = .n then s.n.toNat else 2 * s.n.toNat), s.v vs1 k = s'.v vs1 k ∧ s.v vs2 k = s'.v vs2 k) →
      (∃ t t', exec (.dot vs1 vs2 len) s = .next t ∧ exec (.dot vs1 vs2 len) s' = .next t' ∧ t.s = t'.s) ∧
      (s.s = s'.s → ∀ c ∈ [Instr.dotadd vs1 vs2 len, .dotsub vs1 vs2 len],
        ∃ t t', exec c s = .next t ∧ exec c s' = .next t' ∧ t.s = t'.s))
end

