-- ==== Sys2Proof/Laws/Arith.lean ====
section
/-! SUPPORT. The exact arithmetic of the commands: `sumBelow` is the finite sum, `residue` is the remainder in
`[0, q)`, `signed16` is the two's-complement value, and what `decideBit` decides. -/

namespace Sys2Proof.Machine

theorem sumBelow_eq_sum (len : Nat) (f : Nat → Int) : sumBelow len f = ∑ i ∈ Finset.range len, f i := by
  induction len with
  | zero => rfl
  | succ len ih => rw [sumBelow, Finset.sum_range_succ, ih]

theorem sumBelow_congr {len : Nat} {f g : Nat → Int} (h : ∀ i < len, f i = g i) : sumBelow len f = sumBelow len g := by
  induction len with
  | zero => rfl
  | succ len ih => rw [sumBelow, sumBelow, ih fun i hi => h i (by omega), h len (by omega)]

/-- A row sum reads row `i` and the bank below `N`, nothing else (R38, R110). -/
theorem rowSum_congr {s s' : State} {k : Bank} {i : Nat} (hn : s.n = s'.n)
    (ha : ∀ j < s.n.toNat, s.a i j = s'.a i j) (hv : ∀ j < s.n.toNat, s.v k j = s'.v k j) :
    s.rowSum k i = s'.rowSum k i := by
  unfold State.rowSum State.valN
  rw [← hn]
  exact sumBelow_congr fun j hj => by rw [ha j hj, hv j hj]

/-- A column sum reads column `j` and the bank below `2·N`, nothing else (R38, R112). -/
theorem colSum_congr {s s' : State} {k : Bank} {j : Nat} (hn : s.n = s'.n)
    (ha : ∀ i < 2 * s.n.toNat, s.a i j = s'.a i j) (hv : ∀ i < 2 * s.n.toNat, s.v k i = s'.v k i) :
    s.colSum k j = s'.colSum k j := by
  unfold State.colSum State.valM State.valN
  rw [← hn]
  exact sumBelow_congr fun i hi => by rw [ha i hi, hv i hi]

/-- A dot product reads its two banks below its length, nothing else (R38, R120). -/
theorem dotSum_congr {s s' : State} {k1 k2 : Bank} {len : Len} (hn : s.n = s'.n)
    (hv : ∀ k < s.lengthOf len, s.v k1 k = s'.v k1 k ∧ s.v k2 k = s'.v k2 k) :
    s.dotSum k1 k2 len = s'.dotSum k1 k2 len := by
  have hl : s'.lengthOf len = s.lengthOf len := by cases len <;> simp only [State.lengthOf, State.valM, State.valN, hn]
  unfold State.dotSum
  rw [hl]
  exact sumBelow_congr fun k hk => by rw [(hv k hk).1, (hv k hk).2]

/-- A residue is the remainder itself: no truncation happens on a command's write (R5, R70). -/
theorem unsigned_residue (x : Int) {q : Nat} (hq : 0 < q) (hq' : q ≤ 2 ^ 16) : unsigned (residue x q) = x % (q : Int) := by
  have h0 : 0 ≤ x % (q : Int) := Int.emod_nonneg _ (by omega)
  have h1 : x % (q : Int) < q := Int.emod_lt_of_pos _ (by omega)
  unfold unsigned residue
  rw [BitVec.toNat_ofInt]
  omega

theorem residue_toNat_lt (x : Int) {q : Nat} (hq : 0 < q) (hq' : q ≤ 2 ^ 16) : (residue x q).toNat < q := by
  have h := unsigned_residue x hq hq'
  have h1 : x % (q : Int) < q := Int.emod_lt_of_pos _ (by omega)
  unfold unsigned at h
  omega

/-- Two integers with the same remainder have the same residue. -/
theorem residue_congr {x y : Int} {q : Nat} (h : x % (q : Int) = y % (q : Int)) : residue x q = residue y q := by
  unfold residue; rw [h]

theorem residue_eq_iff {x y : Int} {q : Nat} (hq : 0 < q) (hq' : q ≤ 2 ^ 16) :
    residue x q = residue y q ↔ x % (q : Int) = y % (q : Int) := by
  refine ⟨fun h => ?_, residue_congr⟩
  rw [← unsigned_residue x hq hq', ← unsigned_residue y hq hq', h]

/-- Every value register `Q` can hold fits in an entry. -/
theorem valQ_le (s : State) : s.valQ ≤ 2 ^ 16 := Nat.le_of_lt s.q.isLt

theorem unsigned_nonneg (x : Entry) : 0 ≤ unsigned x := by unfold unsigned; omega

theorem unsigned_inj {x y : Entry} (h : unsigned x = unsigned y) : x = y :=
  BitVec.eq_of_toNat_eq (by unfold unsigned at h; omega)

/-- `signed16` is the two's-complement reading, as `BitVec` defines it. -/
theorem signed16_eq_toInt (x : Entry) : signed16 x = x.toInt := by
  unfold signed16
  rw [BitVec.toInt_eq_toNat_cond]
  split <;> split <;> omega

theorem signed16_bounds (x : Entry) : -32768 ≤ signed16 x ∧ signed16 x ≤ 32767 := by
  have := x.isLt
  unfold signed16
  split <;> omega

/-- QDEC's decision is 0 exactly when the circular distance to 0 is strictly the smaller (R131). -/
theorem decideBit_eq_zero_iff (raw q : Nat) :
    decideBit raw q = 0#1 ↔ min (raw : Int) ((q : Int) - raw) < |(raw : Int) - (q / 2 : Nat)| := by
  unfold decideBit; dsimp only; split <;> simp_all

theorem decideBit_eq_one_iff (raw q : Nat) :
    decideBit raw q = 1#1 ↔ |(raw : Int) - (q / 2 : Nat)| ≤ min (raw : Int) ((q : Int) - raw) := by
  rw [← not_lt, ← decideBit_eq_zero_iff]
  generalize decideBit raw q = b
  revert b; decide

end Sys2Proof.Machine
end

