-- ==== Sys2Proof/Laws/Encoding.lean ====
section
/-! SUPPORT. The operand fields and their numbers, and the range of an encoded command. -/

namespace Sys2Proof

@[simp] theorem bankOfNumber_bankNumber (b : Bank) : bankOfNumber (bankNumber b) = b := by cases b <;> rfl

theorem bankNumber_lt (b : Bank) : bankNumber b < 4 := by cases b <;> decide

theorem bankNumber_bankOfNumber {n : Nat} (h : n < 4) : bankNumber (bankOfNumber n) = n := by
  have : n = 0 ∨ n = 1 ∨ n = 2 ∨ n = 3 := by omega
  rcases this with rfl | rfl | rfl | rfl <;> rfl

theorem bankNumber_inj {b c : Bank} (h : bankNumber b = bankNumber c) : b = c := by
  rw [← bankOfNumber_bankNumber b, h, bankOfNumber_bankNumber]

@[simp] theorem lenOfField_lenField (l : Len) : lenOfField (lenField l) = l := by cases l <;> rfl

theorem lenField_lt (l : Len) : lenField l < 2 := by cases l <;> decide

theorem lenField_lenOfField {n : Nat} (h : n < 2) : lenField (lenOfField n) = n := by
  have : n = 0 ∨ n = 1 := by omega
  rcases this with rfl | rfl <;> rfl

theorem bits_lt (x hi lo : Nat) : bits x hi lo < 2 ^ (hi - lo + 1) := Nat.mod_lt _ (by positivity)

theorem encodeNat_lt (i : Instr) : encodeNat i < 2 ^ 32 := by
  cases i with
  | nop => simp [encodeNat]
  | qdec => simp [encodeNat]
  | setn imm => have := imm.isLt; simp only [encodeNat]; omega
  | setq imm => have := imm.isLt; simp only [encodeNat]; omega
  | qenc imm => have := imm.isLt; simp only [encodeNat]; omega
  | mvm vd vs1 => have := bankNumber_lt vd; have := bankNumber_lt vs1; simp only [encodeNat]; omega
  | mvmt vd vs1 => have := bankNumber_lt vd; have := bankNumber_lt vs1; simp only [encodeNat]; omega
  | mvma vd vs1 vs2 =>
    have := bankNumber_lt vd; have := bankNumber_lt vs1; have := bankNumber_lt vs2
    simp only [encodeNat]; omega
  | dot vs1 vs2 len =>
    have := bankNumber_lt vs1; have := bankNumber_lt vs2; have := lenField_lt len
    simp only [encodeNat]; omega
  | dotadd vs1 vs2 len =>
    have := bankNumber_lt vs1; have := bankNumber_lt vs2; have := lenField_lt len
    simp only [encodeNat]; omega
  | dotsub vs1 vs2 len =>
    have := bankNumber_lt vs1; have := bankNumber_lt vs2; have := lenField_lt len
    simp only [encodeNat]; omega

/-- No bit of the table of rule R88 is lost in a 32-bit word. -/
theorem encode_toNat (i : Instr) : (encode i).toNat = encodeNat i := by
  rw [encode, BitVec.toNat_ofNat]; exact Nat.mod_eq_of_lt (encodeNat_lt i)

/-- Exactly the decoder's two outcomes, the test of a format without aliasing. -/
theorem checkZero_eq_command {z : Bool} {i j : Instr} : checkZero z i = .command j ↔ z = true ∧ i = j := by
  unfold checkZero; cases z <;> simp

/-- The same for the MVM family. -/
theorem checkMvm_eq_command {z : Bool} {vd vs1 : Bank} {i j : Instr} :
    checkMvm z vd vs1 i = .command j ↔ z = true ∧ vd ≠ vs1 ∧ i = j := by
  unfold checkMvm; cases z <;> by_cases h : vd = vs1 <;> simp [h]

end Sys2Proof
end

