-- ==== Sys2Proof/Laws/Memory.lean ====
section
/-! SUPPORT. The storage image: every operation keeps its canonical form, a read after a write to the same place gives
the value written, a write leaves every other place alone, and two images that read alike are equal. -/

namespace Sys2Proof.Machine

/-! ### Bytes -/

@[simp] theorem readByte_nil (a : Nat) : readByte [] a = Config.unlistedByte := rfl

theorem memoryWf_nil : MemoryWf [] := by simp [MemoryWf]

theorem memoryWf_cons {c : Host.Cell} {m : Memory} :
    MemoryWf (c :: m) ↔ (∀ d ∈ m, c.1 < d.1) ∧ c.2 ≠ Config.unlistedByte ∧ MemoryWf m := by
  simp only [MemoryWf, List.pairwise_cons, List.mem_cons, forall_eq_or_imp]
  tauto

/-- An address below every listed one reads as unlisted. -/
theorem readByte_of_lt {m : Memory} {a : Nat} (h : ∀ d ∈ m, a < d.1) : readByte m a = Config.unlistedByte := by
  induction m with
  | nil => rfl
  | cons c m ih =>
    obtain ⟨b, v⟩ := c
    have hb : a < b := h (b, v) (by simp)
    have hm : ∀ d ∈ m, a < d.1 := fun d hd => h d (by simp [hd])
    simp [readByte, Nat.ne_of_lt hb, ih hm]

/-- A write lists no address that was not listed, but the one written. -/
theorem mem_writeByte {m : Memory} {a : Nat} {x : Byte} {c : Host.Cell} (h : c ∈ writeByte m a x) :
    c ∈ m ∨ (c = (a, x) ∧ x ≠ Config.unlistedByte) := by
  induction m with
  | nil =>
    unfold writeByte at h
    split at h
    · simp at h
    · next hx => right; exact ⟨by simpa using h, hx⟩
  | cons d m ih =>
    obtain ⟨b, v⟩ := d
    unfold writeByte at h
    split_ifs at h with h1 h2 h3 h4
    · exact .inl h
    · rcases List.mem_cons.1 h with h | h
      · exact .inr ⟨h, h2⟩
      · exact .inl h
    · exact .inl (List.mem_cons_of_mem _ h)
    · rcases List.mem_cons.1 h with h | h
      · exact .inr ⟨h, h4⟩
      · exact .inl (List.mem_cons_of_mem _ h)
    · rcases List.mem_cons.1 h with h | h
      · exact .inl (by simp [h])
      · exact (ih h).imp (List.mem_cons_of_mem _) id

theorem writeByte_wf {m : Memory} (h : MemoryWf m) (a : Nat) (x : Byte) : MemoryWf (writeByte m a x) := by
  induction m with
  | nil => unfold writeByte; split <;> simp_all [MemoryWf]
  | cons d m ih =>
    obtain ⟨b, v⟩ := d
    obtain ⟨hlt, hv, hm⟩ := memoryWf_cons.1 h
    unfold writeByte
    split_ifs with h1 h2 h3 h4
    · exact h
    · refine memoryWf_cons.2 ⟨?_, h2, h⟩
      intro d hd
      rcases List.mem_cons.1 hd with rfl | hd
      · exact h1
      · exact Nat.lt_trans h1 (hlt d hd)
    · exact hm
    · exact memoryWf_cons.2 ⟨fun d hd => h3 ▸ hlt d hd, h4, hm⟩
    · refine memoryWf_cons.2 ⟨?_, hv, ih hm⟩
      intro d hd
      rcases mem_writeByte hd with hd | ⟨rfl, -⟩
      · exact hlt d hd
      · show b < a; omega

theorem readByte_writeByte_same {m : Memory} (h : MemoryWf m) (a : Nat) (x : Byte) :
    readByte (writeByte m a x) a = x := by
  induction m with
  | nil => unfold writeByte; split <;> simp_all [readByte]
  | cons d m ih =>
    obtain ⟨b, v⟩ := d
    obtain ⟨hlt, hv, hm⟩ := memoryWf_cons.1 h
    unfold writeByte
    split_ifs with h1 h2 h3 h4
    · rw [h2]
      refine readByte_of_lt fun d hd => ?_
      rcases List.mem_cons.1 hd with rfl | hd
      · exact h1
      · exact Nat.lt_trans h1 (hlt d hd)
    · simp [readByte]
    · rw [h4]; exact readByte_of_lt fun d hd => h3 ▸ hlt d hd
    · simp [readByte]
    · simp [readByte, h3, ih hm]

theorem readByte_writeByte_other (m : Memory) {a b : Nat} (x : Byte) (hab : b ≠ a) :
    readByte (writeByte m a x) b = readByte m b := by
  induction m with
  | nil => unfold writeByte; split <;> simp [readByte, hab]
  | cons d m ih =>
    obtain ⟨c, v⟩ := d
    unfold writeByte
    split_ifs with h1 h2 h3 h4
    · rfl
    · simp [readByte, hab]
    · simp [readByte, show b ≠ c from h3 ▸ hab]
    · simp [readByte, hab, show b ≠ c from h3 ▸ hab]
    · simp only [readByte]; split <;> simp_all

/-- In a canonical image the listed addresses are those that do not read as unlisted. -/
theorem readByte_of_mem {m : Memory} (h : MemoryWf m) {c : Host.Cell} (hc : c ∈ m) : readByte m c.1 = c.2 := by
  induction m with
  | nil => simp at hc
  | cons d m ih =>
    obtain ⟨b, v⟩ := d
    obtain ⟨hlt, hv, hm⟩ := memoryWf_cons.1 h
    rcases List.mem_cons.1 hc with rfl | hc
    · simp [readByte]
    · have := hlt c hc
      simp [readByte, Nat.ne_of_gt this, ih hm hc]

/-- Equal memories are equal data: two canonical images that read alike at every address are the same list. -/
theorem memory_ext {m m' : Memory} (h : MemoryWf m) (h' : MemoryWf m')
    (heq : ∀ a, readByte m a = readByte m' a) : m = m' := by
  induction m generalizing m' with
  | nil =>
    cases m' with
    | nil => rfl
    | cons d m' =>
      obtain ⟨-, hd, -⟩ := memoryWf_cons.1 h'
      have := heq d.1
      rw [readByte_of_mem h' (by simp)] at this
      exact absurd this.symm hd
  | cons c m ih =>
    obtain ⟨hlt, hc, hm⟩ := memoryWf_cons.1 h
    cases m' with
    | nil =>
      have := heq c.1
      rw [readByte_of_mem h (by simp)] at this
      exact absurd this hc
    | cons d m' =>
      obtain ⟨hlt', hd, hm'⟩ := memoryWf_cons.1 h'
      have e1 := heq c.1
      have e2 := heq d.1
      rw [readByte_of_mem h (by simp)] at e1
      rw [readByte_of_mem h' (by simp)] at e2
      have key : c.1 = d.1 := by
        rcases Nat.lt_trichotomy c.1 d.1 with hlt1 | heq1 | hlt1
        · have : readByte (d :: m') c.1 = Config.unlistedByte := readByte_of_lt fun x hx => by
            rcases List.mem_cons.1 hx with rfl | hx
            · exact hlt1
            · exact Nat.lt_trans hlt1 (hlt' x hx)
          exact absurd (e1.trans this) hc
        · exact heq1
        · have : readByte (c :: m) d.1 = Config.unlistedByte := readByte_of_lt fun x hx => by
            rcases List.mem_cons.1 hx with rfl | hx
            · exact hlt1
            · exact Nat.lt_trans hlt1 (hlt x hx)
          exact absurd (e2.symm.trans this) hd
      have hval : c.2 = d.2 := by rw [e1, key, readByte_of_mem h' (by simp)]
      have hcd : c = d := Prod.ext key hval
      subst hcd
      congr 1
      refine ih hm hm' fun a => ?_
      by_cases ha : a = c.1
      · subst ha; rw [readByte_of_lt hlt, readByte_of_lt hlt']
      · have := heq a
        obtain ⟨b, v⟩ := c
        simpa [readByte, show a ≠ b from ha] using this

/-! ### Entries -/

theorem writeEntry_wf {m : Memory} (h : MemoryWf m) (a : Nat) (e : Entry) : MemoryWf (writeEntry m a e) :=
  writeByte_wf (writeByte_wf h _ _) _ _

theorem entry_bytes (e : Entry) : e.extractLsb' 8 8 ++ e.extractLsb' 0 8 = e := by
  ext i hi
  simp only [BitVec.getElem_append, BitVec.getElem_extractLsb']
  split
  · simp [BitVec.getLsbD_eq_getElem, hi]
  · rw [show 8 + (i - 8) = i by omega]; simp [BitVec.getLsbD_eq_getElem, hi]

theorem high_byte (x y : Byte) : (x ++ y).extractLsb' 8 8 = x := by
  refine BitVec.eq_of_getLsbD_eq fun i hi => ?_
  rw [BitVec.getLsbD_extractLsb', BitVec.getLsbD_append]; simp [hi]

theorem low_byte (x y : Byte) : (x ++ y).extractLsb' 0 8 = y := by
  refine BitVec.eq_of_getLsbD_eq fun i hi => ?_
  rw [BitVec.getLsbD_extractLsb', BitVec.getLsbD_append]; simp [hi]

theorem readEntry_writeEntry_same {m : Memory} (h : MemoryWf m) (a : Nat) (e : Entry) :
    readEntry (writeEntry m a e) a = e := by
  unfold readEntry writeEntry
  rw [readByte_writeByte_same (writeByte_wf h _ _), readByte_writeByte_other _ _ (by omega),
    readByte_writeByte_same h]
  exact entry_bytes e

theorem readEntry_writeEntry_other (m : Memory) {a b : Nat} (e : Entry) (hab : b ≠ a) :
    readEntry (writeEntry m a e) b = readEntry m b := by
  unfold readEntry writeEntry
  rw [readByte_writeByte_other _ _ (by omega), readByte_writeByte_other _ _ (by omega),
    readByte_writeByte_other _ _ (by omega), readByte_writeByte_other _ _ (by omega)]

@[simp] theorem readEntry_nil (a : Nat) : readEntry [] a = 0#16 := by
  simp only [readEntry, readByte_nil]; decide

/-- Two canonical images whose entries read alike are equal: an entry's two bytes are its own. -/
theorem memory_ext_entry {m m' : Memory} (h : MemoryWf m) (h' : MemoryWf m')
    (heq : ∀ a, readEntry m a = readEntry m' a) : m = m' := by
  refine memory_ext h h' fun a => ?_
  have e := heq (a / 2)
  have hi : readByte m (2 * (a / 2) + 1) = readByte m' (2 * (a / 2) + 1) := by
    rw [← high_byte (readByte m _) (readByte m (2 * (a / 2))), ← high_byte (readByte m' _) (readByte m' (2 * (a / 2)))]
    exact congrArg (BitVec.extractLsb' 8 8) e
  have lo : readByte m (2 * (a / 2)) = readByte m' (2 * (a / 2)) := by
    rw [← low_byte (readByte m (2 * (a / 2) + 1)) (readByte m _), ← low_byte (readByte m' (2 * (a / 2) + 1)) (readByte m' _)]
    exact congrArg (BitVec.extractLsb' 0 8) e
  rcases Nat.mod_two_eq_zero_or_one a with h0 | h0
  · rwa [show 2 * (a / 2) = a by omega] at lo
  · rwa [show 2 * (a / 2) + 1 = a by omega] at hi

/-! ### Vectors -/

theorem writeVector_wf {m : Memory} (h : MemoryWf m) (k : Bank) (len : Nat) (f : Nat → Entry) :
    MemoryWf (writeVector m k len f) := by
  induction len with
  | zero => exact h
  | succ len ih => exact writeEntry_wf ih _ _

/-- A vector write writes `f i` to entry `i` of the bank for every `i < len`. -/
theorem readEntry_writeVector_same {m : Memory} (h : MemoryWf m) (k : Bank) {len i : Nat} (f : Nat → Entry)
    (hi : i < len) : readEntry (writeVector m k len f) (bankAddr k i) = f i := by
  induction len with
  | zero => omega
  | succ len ih =>
    rcases Nat.lt_succ_iff_lt_or_eq.1 hi with hlt | rfl
    · have hne : bankAddr k i ≠ bankAddr k len := by unfold bankAddr; omega
      exact (readEntry_writeEntry_other _ _ hne).trans (ih hlt)
    · exact readEntry_writeEntry_same (writeVector_wf h _ _ _) _ _

/-- A vector write leaves every other entry of the whole storage as it was. -/
theorem readEntry_writeVector_other (m : Memory) (k : Bank) (len : Nat) (f : Nat → Entry) {a : Nat}
    (ha : ∀ i < len, a ≠ bankAddr k i) : readEntry (writeVector m k len f) a = readEntry m a := by
  induction len with
  | zero => rfl
  | succ len ih =>
    exact (readEntry_writeEntry_other _ _ (ha len (by omega))).trans (ih fun i hi => ha i (by omega))

/-! ### Where the listed bytes are -/

theorem mem_writeEntry {m : Memory} {a : Nat} {e : Entry} {c : Host.Cell} (h : c ∈ writeEntry m a e) :
    c ∈ m ∨ c.1 = 2 * a ∨ c.1 = 2 * a + 1 := by
  rcases mem_writeByte h with h | ⟨rfl, -⟩
  · rcases mem_writeByte h with h | ⟨rfl, -⟩
    · exact .inl h
    · exact .inr (.inl rfl)
  · exact .inr (.inr rfl)

theorem mem_writeVector {m : Memory} {k : Bank} {len : Nat} {f : Nat → Entry} {c : Host.Cell}
    (h : c ∈ writeVector m k len f) : c ∈ m ∨ ∃ i < len, c.1 = 2 * bankAddr k i ∨ c.1 = 2 * bankAddr k i + 1 := by
  induction len with
  | zero => exact .inl h
  | succ len ih =>
    rcases mem_writeEntry h with h | h
    · exact (ih h).imp id fun ⟨i, hi, hc⟩ => ⟨i, by omega, hc⟩
    · exact .inr ⟨len, by omega, h⟩

/-- The bytes of a bank entry are bank storage (R53, R55). -/
theorem mappedByte_bankAddr (k : Bank) {i : Nat} (hi : i < 512) :
    MappedByte (2 * bankAddr k i) ∧ MappedByte (2 * bankAddr k i + 1) := by
  cases k <;> simp only [MappedByte, bankAddr, bankNumber] <;> omega

/-- The bytes of a matrix entry are matrix storage (R53, R56). -/
theorem mappedByte_matrixAddr {i j : Nat} (hi : i < 512) (hj : j < 256) :
    MappedByte (2 * matrixAddr i j) ∧ MappedByte (2 * matrixAddr i j + 1) := by
  simp only [MappedByte, matrixAddr]; omega

/-- Distinct bank entries have distinct addresses (R55). -/
theorem bankAddr_inj {k k' : Bank} {i i' : Nat} (hi : i < 512) (hi' : i' < 512)
    (h : bankAddr k i = bankAddr k' i') : k = k' ∧ i = i' := by
  cases k <;> cases k' <;> simp only [bankAddr, bankNumber] at h <;> first | omega | exact ⟨rfl, by omega⟩

/-- No bank entry is a matrix entry (R53). -/
theorem bankAddr_ne_matrixAddr (k : Bank) {i : Nat} (hi : i < 512) (x y : Nat) : bankAddr k i ≠ matrixAddr x y := by
  cases k <;> simp only [bankAddr, bankNumber, matrixAddr] <;> omega

/-- A vector write within a bank leaves the matrix as it was (R22). -/
theorem withVector_a (s : State) (k : Bank) {len : Nat} (f : Nat → Entry) (hlen : len ≤ 512) (i j : Nat) :
    (s.withVector k len f).a i j = s.a i j :=
  readEntry_writeVector_other _ _ _ _ fun _ hx => (bankAddr_ne_matrixAddr k (by omega) i j).symm

/-- A vector write leaves every other bank as it was. -/
theorem withVector_v_other (s : State) {k k' : Bank} {len : Nat} (f : Nat → Entry) (hlen : len ≤ 512) (hk : k' ≠ k)
    {i : Nat} (hi : i < 512) : (s.withVector k len f).v k' i = s.v k' i :=
  readEntry_writeVector_other _ _ _ _ fun _ hx h => hk (bankAddr_inj hi (by omega) h).1

/-- A vector write puts `f i` into entry `i`. -/
theorem withVector_v_same (s : State) (hm : MemoryWf s.mem) (k : Bank) {len i : Nat} (f : Nat → Entry) (hi : i < len) :
    (s.withVector k len f).v k i = f i :=
  readEntry_writeVector_same hm k f hi

/-- A vector write leaves the entries of its bank from `len` on as they were (R38). -/
theorem withVector_v_outside (s : State) (k : Bank) {len i : Nat} (f : Nat → Entry) (hi : len ≤ i) :
    (s.withVector k len f).v k i = s.v k i :=
  readEntry_writeVector_other _ _ _ _ fun j hj => by unfold bankAddr; omega

end Sys2Proof.Machine
end

