-- ==== Sys2Proof/Laws/PerInstr.lean ====
section
/-! SUPPORT. The family of facts about every command as syntax, one lemma per constructor of `Instr`. -/

namespace Sys2Proof

/-- The opcode of each command (spec/30_encoding.md rule R84). -/
def Laws.OpcodeField.opcode : Instr → Nat
  | .nop => 0x00
  | .setn _ => 0x01
  | .setq _ => 0x02
  | .mvm _ _ => 0x10
  | .mvma _ _ _ => 0x11
  | .mvmt _ _ => 0x12
  | .dot _ _ _ => 0x20
  | .dotadd _ _ _ => 0x21
  | .dotsub _ _ _ => 0x22
  | .qenc _ => 0x30
  | .qdec => 0x31

/-- The word of a command carries the command's opcode in bits 31:24 and 0 in the reserved bit 17 (R81, R84, R86). -/
def Laws.OpcodeField.Statement (i : Instr) : Prop :=
  opField (encode i) = Laws.OpcodeField.opcode i ∧ bits (encode i).toNat 17 17 = 0

theorem Laws.OpcodeField.statement_of_range {i : Instr} (c : Nat) (h : Laws.OpcodeField.opcode i = c)
    (hop : encodeNat i / 2 ^ 24 = c) (hc : c < 256) (hr : encodeNat i / 2 ^ 17 % 2 = 0) :
    Laws.OpcodeField.Statement i := by
  refine ⟨?_, ?_⟩
  · rw [opField, bits, encode_toNat, h, hop]; exact Nat.mod_eq_of_lt hc
  · rw [bits, encode_toNat]; exact hr

theorem Laws.OpcodeField.nop : Laws.OpcodeField.Statement .nop := by
  constructor <;> decide

theorem Laws.OpcodeField.qdec : Laws.OpcodeField.Statement .qdec := by
  constructor <;> decide

theorem Laws.OpcodeField.setn (imm : BitVec 16) : Laws.OpcodeField.Statement (.setn imm) := by
  have := imm.isLt
  refine statement_of_range 0x01 rfl ?_ (by omega) ?_ <;> simp only [encodeNat] <;> omega

theorem Laws.OpcodeField.setq (imm : BitVec 16) : Laws.OpcodeField.Statement (.setq imm) := by
  have := imm.isLt
  refine statement_of_range 0x02 rfl ?_ (by omega) ?_ <;> simp only [encodeNat] <;> omega

theorem Laws.OpcodeField.qenc (imm : BitVec 16) : Laws.OpcodeField.Statement (.qenc imm) := by
  have := imm.isLt
  refine statement_of_range 0x30 rfl ?_ (by omega) ?_ <;> simp only [encodeNat] <;> omega

theorem Laws.OpcodeField.mvm (vd vs1 : Bank) : Laws.OpcodeField.Statement (.mvm vd vs1) := by
  have := bankNumber_lt vd
  have := bankNumber_lt vs1
  refine statement_of_range 0x10 rfl ?_ (by omega) ?_ <;> simp only [encodeNat] <;> omega

theorem Laws.OpcodeField.mvma (vd vs1 vs2 : Bank) : Laws.OpcodeField.Statement (.mvma vd vs1 vs2) := by
  have := bankNumber_lt vd
  have := bankNumber_lt vs1
  have := bankNumber_lt vs2
  refine statement_of_range 0x11 rfl ?_ (by omega) ?_ <;> simp only [encodeNat] <;> omega

theorem Laws.OpcodeField.mvmt (vd vs1 : Bank) : Laws.OpcodeField.Statement (.mvmt vd vs1) := by
  have := bankNumber_lt vd
  have := bankNumber_lt vs1
  refine statement_of_range 0x12 rfl ?_ (by omega) ?_ <;> simp only [encodeNat] <;> omega

theorem Laws.OpcodeField.dot (vs1 vs2 : Bank) (len : Len) : Laws.OpcodeField.Statement (.dot vs1 vs2 len) := by
  have := bankNumber_lt vs1
  have := bankNumber_lt vs2
  have := lenField_lt len
  refine statement_of_range 0x20 rfl ?_ (by omega) ?_ <;> simp only [encodeNat] <;> omega

theorem Laws.OpcodeField.dotadd (vs1 vs2 : Bank) (len : Len) : Laws.OpcodeField.Statement (.dotadd vs1 vs2 len) := by
  have := bankNumber_lt vs1
  have := bankNumber_lt vs2
  have := lenField_lt len
  refine statement_of_range 0x21 rfl ?_ (by omega) ?_ <;> simp only [encodeNat] <;> omega

theorem Laws.OpcodeField.dotsub (vs1 vs2 : Bank) (len : Len) : Laws.OpcodeField.Statement (.dotsub vs1 vs2 len) := by
  have := bankNumber_lt vs1
  have := bankNumber_lt vs2
  have := lenField_lt len
  refine statement_of_range 0x22 rfl ?_ (by omega) ?_ <;> simp only [encodeNat] <;> omega

end Sys2Proof
end

