-- ==== Sys2Proof/Laws/State.lean ====
section
/-! SUPPORT. What each update of the state does to each field, each true by `rfl` and tagged for `simp`, and what the
accessors read after an update that leaves the fields they read. -/

namespace Sys2Proof.Machine

section Reset

@[simp] theorem reset_n : State.reset.n = Config.resetN := rfl
@[simp] theorem reset_q : State.reset.q = Config.resetQ := rfl
@[simp] theorem reset_s : State.reset.s = 0#16 := rfl
@[simp] theorem reset_bit : State.reset.bit = 0#1 := rfl
@[simp] theorem reset_locked : State.reset.locked = false := rfl
@[simp] theorem reset_fault : State.reset.fault = 0#3 := rfl
@[simp] theorem reset_fcmd : State.reset.fcmd = 0#32 := rfl
@[simp] theorem reset_mem : State.reset.mem = [] := rfl
@[simp] theorem reset_pending : State.reset.pending = [] := rfl
@[simp] theorem reset_rsp : State.reset.rsp = none := rfl

end Reset

/-! ### `setLocked` -/

@[simp] theorem setLocked_n (s : State) : (setLocked s).n = s.n := rfl
@[simp] theorem setLocked_q (s : State) : (setLocked s).q = s.q := rfl
@[simp] theorem setLocked_s (s : State) : (setLocked s).s = s.s := rfl
@[simp] theorem setLocked_bit (s : State) : (setLocked s).bit = s.bit := rfl
@[simp] theorem setLocked_locked (s : State) : (setLocked s).locked = true := rfl
@[simp] theorem setLocked_fault (s : State) : (setLocked s).fault = s.fault := rfl
@[simp] theorem setLocked_fcmd (s : State) : (setLocked s).fcmd = s.fcmd := rfl
@[simp] theorem setLocked_mem (s : State) : (setLocked s).mem = s.mem := rfl
@[simp] theorem setLocked_pending (s : State) : (setLocked s).pending = s.pending := rfl
@[simp] theorem setLocked_rsp (s : State) : (setLocked s).rsp = s.rsp := rfl

/-! ### `State.withVector` -/

@[simp] theorem withVector_n (s : State) (k : Bank) (len : Nat) (f : Nat → Entry) :
    (s.withVector k len f).n = s.n := rfl
@[simp] theorem withVector_q (s : State) (k : Bank) (len : Nat) (f : Nat → Entry) :
    (s.withVector k len f).q = s.q := rfl
@[simp] theorem withVector_s (s : State) (k : Bank) (len : Nat) (f : Nat → Entry) :
    (s.withVector k len f).s = s.s := rfl
@[simp] theorem withVector_bit (s : State) (k : Bank) (len : Nat) (f : Nat → Entry) :
    (s.withVector k len f).bit = s.bit := rfl
@[simp] theorem withVector_locked (s : State) (k : Bank) (len : Nat) (f : Nat → Entry) :
    (s.withVector k len f).locked = s.locked := rfl
@[simp] theorem withVector_fault (s : State) (k : Bank) (len : Nat) (f : Nat → Entry) :
    (s.withVector k len f).fault = s.fault := rfl
@[simp] theorem withVector_fcmd (s : State) (k : Bank) (len : Nat) (f : Nat → Entry) :
    (s.withVector k len f).fcmd = s.fcmd := rfl
@[simp] theorem withVector_mem (s : State) (k : Bank) (len : Nat) (f : Nat → Entry) :
    (s.withVector k len f).mem = writeVector s.mem k len f := rfl
@[simp] theorem withVector_pending (s : State) (k : Bank) (len : Nat) (f : Nat → Entry) :
    (s.withVector k len f).pending = s.pending := rfl
@[simp] theorem withVector_rsp (s : State) (k : Bank) (len : Nat) (f : Nat → Entry) :
    (s.withVector k len f).rsp = s.rsp := rfl

/-! ### `State.withEntry` -/

@[simp] theorem withEntry_n (s : State) (a : Nat) (e : Entry) : (s.withEntry a e).n = s.n := rfl
@[simp] theorem withEntry_q (s : State) (a : Nat) (e : Entry) : (s.withEntry a e).q = s.q := rfl
@[simp] theorem withEntry_s (s : State) (a : Nat) (e : Entry) : (s.withEntry a e).s = s.s := rfl
@[simp] theorem withEntry_bit (s : State) (a : Nat) (e : Entry) : (s.withEntry a e).bit = s.bit := rfl
@[simp] theorem withEntry_locked (s : State) (a : Nat) (e : Entry) : (s.withEntry a e).locked = s.locked := rfl
@[simp] theorem withEntry_fault (s : State) (a : Nat) (e : Entry) : (s.withEntry a e).fault = s.fault := rfl
@[simp] theorem withEntry_fcmd (s : State) (a : Nat) (e : Entry) : (s.withEntry a e).fcmd = s.fcmd := rfl
@[simp] theorem withEntry_mem (s : State) (a : Nat) (e : Entry) : (s.withEntry a e).mem = writeEntry s.mem a e := rfl
@[simp] theorem withEntry_pending (s : State) (a : Nat) (e : Entry) : (s.withEntry a e).pending = s.pending := rfl
@[simp] theorem withEntry_rsp (s : State) (a : Nat) (e : Entry) : (s.withEntry a e).rsp = s.rsp := rfl

/-! ### `resetBlock` -/

@[simp] theorem resetBlock_n (s : State) : (resetBlock s).n = State.reset.n := rfl
@[simp] theorem resetBlock_q (s : State) : (resetBlock s).q = State.reset.q := rfl
@[simp] theorem resetBlock_s (s : State) : (resetBlock s).s = State.reset.s := rfl
@[simp] theorem resetBlock_bit (s : State) : (resetBlock s).bit = State.reset.bit := rfl
@[simp] theorem resetBlock_locked (s : State) : (resetBlock s).locked = State.reset.locked := rfl
@[simp] theorem resetBlock_fault (s : State) : (resetBlock s).fault = State.reset.fault := rfl
@[simp] theorem resetBlock_fcmd (s : State) : (resetBlock s).fcmd = State.reset.fcmd := rfl
@[simp] theorem resetBlock_mem (s : State) : (resetBlock s).mem = State.reset.mem := rfl
@[simp] theorem resetBlock_pending (s : State) : (resetBlock s).pending = s.pending := rfl
@[simp] theorem resetBlock_rsp (s : State) : (resetBlock s).rsp = s.rsp := rfl

/-! ### `respond` -/

@[simp] theorem respond_n (r : Response) (s : State) : (respond r s).n = s.n := rfl
@[simp] theorem respond_q (r : Response) (s : State) : (respond r s).q = s.q := rfl
@[simp] theorem respond_s (r : Response) (s : State) : (respond r s).s = s.s := rfl
@[simp] theorem respond_bit (r : Response) (s : State) : (respond r s).bit = s.bit := rfl
@[simp] theorem respond_locked (r : Response) (s : State) : (respond r s).locked = s.locked := rfl
@[simp] theorem respond_fault (r : Response) (s : State) : (respond r s).fault = s.fault := rfl
@[simp] theorem respond_fcmd (r : Response) (s : State) : (respond r s).fcmd = s.fcmd := rfl
@[simp] theorem respond_mem (r : Response) (s : State) : (respond r s).mem = s.mem := rfl
@[simp] theorem respond_pending (r : Response) (s : State) : (respond r s).pending = s.pending := rfl
@[simp] theorem respond_rsp (r : Response) (s : State) : (respond r s).rsp = some r := rfl

/-! ### `idle` -/

@[simp] theorem idle_n (s : State) : (idle s).n = s.n := rfl
@[simp] theorem idle_q (s : State) : (idle s).q = s.q := rfl
@[simp] theorem idle_s (s : State) : (idle s).s = s.s := rfl
@[simp] theorem idle_bit (s : State) : (idle s).bit = s.bit := rfl
@[simp] theorem idle_locked (s : State) : (idle s).locked = s.locked := rfl
@[simp] theorem idle_fault (s : State) : (idle s).fault = s.fault := rfl
@[simp] theorem idle_fcmd (s : State) : (idle s).fcmd = s.fcmd := rfl
@[simp] theorem idle_mem (s : State) : (idle s).mem = s.mem := rfl
@[simp] theorem idle_pending (s : State) : (idle s).pending = s.pending := rfl
@[simp] theorem idle_rsp (s : State) : (idle s).rsp = none := rfl

/-! ### `hardReset` -/

@[simp] theorem hardReset_n (s : State) : (hardReset s).n = State.reset.n := rfl
@[simp] theorem hardReset_q (s : State) : (hardReset s).q = State.reset.q := rfl
@[simp] theorem hardReset_s (s : State) : (hardReset s).s = State.reset.s := rfl
@[simp] theorem hardReset_bit (s : State) : (hardReset s).bit = State.reset.bit := rfl
@[simp] theorem hardReset_locked (s : State) : (hardReset s).locked = State.reset.locked := rfl
@[simp] theorem hardReset_fault (s : State) : (hardReset s).fault = State.reset.fault := rfl
@[simp] theorem hardReset_fcmd (s : State) : (hardReset s).fcmd = State.reset.fcmd := rfl
@[simp] theorem hardReset_mem (s : State) : (hardReset s).mem = State.reset.mem := rfl
@[simp] theorem hardReset_pending (s : State) : (hardReset s).pending = s.pending := rfl
@[simp] theorem hardReset_rsp (s : State) : (hardReset s).rsp = none := rfl

/-! ### `presentInput` -/

@[simp] theorem presentInput_n (i : Input) (s : State) : (presentInput i s).n = s.n := rfl
@[simp] theorem presentInput_q (i : Input) (s : State) : (presentInput i s).q = s.q := rfl
@[simp] theorem presentInput_s (i : Input) (s : State) : (presentInput i s).s = s.s := rfl
@[simp] theorem presentInput_bit (i : Input) (s : State) : (presentInput i s).bit = s.bit := rfl
@[simp] theorem presentInput_locked (i : Input) (s : State) : (presentInput i s).locked = s.locked := rfl
@[simp] theorem presentInput_fault (i : Input) (s : State) : (presentInput i s).fault = s.fault := rfl
@[simp] theorem presentInput_fcmd (i : Input) (s : State) : (presentInput i s).fcmd = s.fcmd := rfl
@[simp] theorem presentInput_mem (i : Input) (s : State) : (presentInput i s).mem = s.mem := rfl
@[simp] theorem presentInput_pending (i : Input) (s : State) : (presentInput i s).pending = i :: s.pending := rfl
@[simp] theorem presentInput_rsp (i : Input) (s : State) : (presentInput i s).rsp = s.rsp := rfl

/-! ### `State.arch` -/

@[simp] theorem arch_n (s : State) : s.arch.n = s.n := rfl
@[simp] theorem arch_q (s : State) : s.arch.q = s.q := rfl
@[simp] theorem arch_s (s : State) : s.arch.s = s.s := rfl
@[simp] theorem arch_bit (s : State) : s.arch.bit = s.bit := rfl
@[simp] theorem arch_locked (s : State) : s.arch.locked = s.locked := rfl
@[simp] theorem arch_fault (s : State) : s.arch.fault = s.fault := rfl
@[simp] theorem arch_fcmd (s : State) : s.arch.fcmd = s.fcmd := rfl
@[simp] theorem arch_mem (s : State) : s.arch.mem = s.mem := rfl
@[simp] theorem arch_pending (s : State) : s.arch.pending = [] := rfl
@[simp] theorem arch_rsp (s : State) : s.arch.rsp = none := rfl

/-! ### Accessors of `N`, `M`, `Q`, `HALF`, the halted view, the banks and the matrix after an update -/

@[simp] theorem setLocked_valN (s : State) : (setLocked s).valN = s.valN := rfl
@[simp] theorem setLocked_valM (s : State) : (setLocked s).valM = s.valM := rfl
@[simp] theorem setLocked_valQ (s : State) : (setLocked s).valQ = s.valQ := rfl
@[simp] theorem setLocked_half (s : State) : (setLocked s).half = s.half := rfl
@[simp] theorem setLocked_halted (s : State) : (setLocked s).halted = s.halted := rfl
@[simp] theorem setLocked_v (s : State) (k : Bank) (x : Nat) : (setLocked s).v k x = s.v k x := rfl
@[simp] theorem setLocked_a (s : State) (x y : Nat) : (setLocked s).a x y = s.a x y := rfl
@[simp] theorem withVector_valN (s : State) (k : Bank) (len : Nat) (f : Nat → Entry) : (s.withVector k len f).valN = s.valN := rfl
@[simp] theorem withVector_valM (s : State) (k : Bank) (len : Nat) (f : Nat → Entry) : (s.withVector k len f).valM = s.valM := rfl
@[simp] theorem withVector_valQ (s : State) (k : Bank) (len : Nat) (f : Nat → Entry) : (s.withVector k len f).valQ = s.valQ := rfl
@[simp] theorem withVector_half (s : State) (k : Bank) (len : Nat) (f : Nat → Entry) : (s.withVector k len f).half = s.half := rfl
@[simp] theorem withVector_halted (s : State) (k : Bank) (len : Nat) (f : Nat → Entry) : (s.withVector k len f).halted = s.halted := rfl
@[simp] theorem withEntry_valN (s : State) (a : Nat) (e : Entry) : (s.withEntry a e).valN = s.valN := rfl
@[simp] theorem withEntry_valM (s : State) (a : Nat) (e : Entry) : (s.withEntry a e).valM = s.valM := rfl
@[simp] theorem withEntry_valQ (s : State) (a : Nat) (e : Entry) : (s.withEntry a e).valQ = s.valQ := rfl
@[simp] theorem withEntry_half (s : State) (a : Nat) (e : Entry) : (s.withEntry a e).half = s.half := rfl
@[simp] theorem withEntry_halted (s : State) (a : Nat) (e : Entry) : (s.withEntry a e).halted = s.halted := rfl
@[simp] theorem respond_valN (r : Response) (s : State) : (respond r s).valN = s.valN := rfl
@[simp] theorem respond_valM (r : Response) (s : State) : (respond r s).valM = s.valM := rfl
@[simp] theorem respond_valQ (r : Response) (s : State) : (respond r s).valQ = s.valQ := rfl
@[simp] theorem respond_half (r : Response) (s : State) : (respond r s).half = s.half := rfl
@[simp] theorem respond_halted (r : Response) (s : State) : (respond r s).halted = s.halted := rfl
@[simp] theorem respond_v (r : Response) (s : State) (k : Bank) (x : Nat) : (respond r s).v k x = s.v k x := rfl
@[simp] theorem respond_a (r : Response) (s : State) (x y : Nat) : (respond r s).a x y = s.a x y := rfl
@[simp] theorem idle_valN (s : State) : (idle s).valN = s.valN := rfl
@[simp] theorem idle_valM (s : State) : (idle s).valM = s.valM := rfl
@[simp] theorem idle_valQ (s : State) : (idle s).valQ = s.valQ := rfl
@[simp] theorem idle_half (s : State) : (idle s).half = s.half := rfl
@[simp] theorem idle_halted (s : State) : (idle s).halted = s.halted := rfl
@[simp] theorem idle_v (s : State) (k : Bank) (x : Nat) : (idle s).v k x = s.v k x := rfl
@[simp] theorem idle_a (s : State) (x y : Nat) : (idle s).a x y = s.a x y := rfl
@[simp] theorem presentInput_valN (i : Input) (s : State) : (presentInput i s).valN = s.valN := rfl
@[simp] theorem presentInput_valM (i : Input) (s : State) : (presentInput i s).valM = s.valM := rfl
@[simp] theorem presentInput_valQ (i : Input) (s : State) : (presentInput i s).valQ = s.valQ := rfl
@[simp] theorem presentInput_half (i : Input) (s : State) : (presentInput i s).half = s.half := rfl
@[simp] theorem presentInput_halted (i : Input) (s : State) : (presentInput i s).halted = s.halted := rfl
@[simp] theorem presentInput_v (i : Input) (s : State) (k : Bank) (x : Nat) : (presentInput i s).v k x = s.v k x := rfl
@[simp] theorem presentInput_a (i : Input) (s : State) (x y : Nat) : (presentInput i s).a x y = s.a x y := rfl
@[simp] theorem arch_valN (s : State) : s.arch.valN = s.valN := rfl
@[simp] theorem arch_valM (s : State) : s.arch.valM = s.valM := rfl
@[simp] theorem arch_valQ (s : State) : s.arch.valQ = s.valQ := rfl
@[simp] theorem arch_half (s : State) : s.arch.half = s.half := rfl
@[simp] theorem arch_halted (s : State) : s.arch.halted = s.halted := rfl
@[simp] theorem arch_v (s : State) (k : Bank) (x : Nat) : s.arch.v k x = s.v k x := rfl
@[simp] theorem arch_a (s : State) (x y : Nat) : s.arch.a x y = s.a x y := rfl

@[simp] theorem arch_arch (s : State) : s.arch.arch = s.arch := rfl
@[simp] theorem arch_respond (r : Response) (s : State) : (respond r s).arch = s.arch := rfl
@[simp] theorem arch_idle (s : State) : (idle s).arch = s.arch := rfl
@[simp] theorem arch_presentInput (i : Input) (s : State) : (presentInput i s).arch = s.arch := rfl
@[simp] theorem arch_resetBlock (s : State) : (resetBlock s).arch = State.reset := rfl
@[simp] theorem arch_hardReset (s : State) : (hardReset s).arch = State.reset := rfl

theorem halted_iff (s : State) : s.halted = true ↔ s.fault ≠ 0#3 := by simp [State.halted]

theorem not_halted_iff (s : State) : s.halted = false ↔ s.fault = 0#3 := by simp [State.halted]

theorem faultCode_ne_zero (c : FaultCause) : faultCode c ≠ 0#3 := by cases c <;> decide

end Sys2Proof.Machine
end

