-- ==== Sys2Proof/Laws/Port.lean ====
section
/-! SUPPORT. What the shared operations of the port and of fault entry can do, each said once: the address decoder,
`raiseFault`, `execWord`, `answerCommand`, the two transactions and the step. -/

namespace Sys2Proof.Machine

/-! ### The address decoder -/

@[simp] theorem targetOf_regAddr (r : PortReg) : targetOf (regAddr r) = .reg r := by cases r <;> rfl

/-- The bit fields of a bank address are the bank and the index it names (R55). -/
theorem bankAddr_bits {x : Nat} (h : 0x00800 ≤ x) (h' : x ≤ 0x00FFF) :
    bankAddr (bankOfNumber (bits x 10 9)) (bits x 8 0) = x := by
  rw [bankAddr, bankNumber_bankOfNumber (bits_lt _ 10 9)]
  simp only [bits, Nat.reduceSub, Nat.reduceAdd, Nat.reducePow]
  omega

/-- The bit fields of a matrix address are the row and the column it names (R56). -/
theorem matrixAddr_bits {x : Nat} (h : 0x20000 ≤ x) (h' : x ≤ 0x3FFFF) :
    matrixAddr (bits x 16 8) (bits x 7 0) = x := by
  simp only [matrixAddr, bits, Nat.reduceSub, Nat.reduceAdd, Nat.reducePow]
  omega

/-- The address decoder in one piece: which addresses name what (R53). -/
theorem targetOf_cases (a : Addr) :
    (∃ r, targetOf a = .reg r ∧ a = regAddr r) ∨
    (∃ k i, targetOf a = .bank k i ∧ i < 512 ∧ a.toNat = bankAddr k i) ∨
    (∃ i j, targetOf a = .matrix i j ∧ i < 512 ∧ j < 256 ∧ a.toNat = matrixAddr i j) ∨
    (targetOf a = .unmapped ∧
      ((0x0000B ≤ a.toNat ∧ a.toNat ≤ 0x007FF) ∨ (0x01000 ≤ a.toNat ∧ a.toNat ≤ 0x1FFFF))) := by
  have hlt := a.isLt
  generalize ht : targetOf a = t
  unfold targetOf at ht
  split at ht
  case h_12 x h0 h1 h2 h3 h4 h5 h6 h7 h8 h9 h10 =>
    split_ifs at ht with hb hm
    · subst ht
      refine .inr (.inl ⟨bankOfNumber (bits a.toNat 10 9), bits a.toNat 8 0, rfl, bits_lt _ 8 0, ?_⟩)
      exact (bankAddr_bits hb.1 hb.2).symm
    · subst ht
      refine .inr (.inr (.inl ⟨bits a.toNat 16 8, bits a.toNat 7 0, rfl, bits_lt _ 16 8, bits_lt _ 7 0, ?_⟩))
      exact (matrixAddr_bits hm.1 hm.2).symm
    · subst ht
      refine .inr (.inr (.inr ⟨rfl, ?_⟩))
      have h10 : 0xA < a.toNat := by
        by_contra hle
        have : a.toNat ≤ 0xA := Nat.le_of_not_lt hle
        interval_cases a.toNat <;> contradiction
      clear h0 h1 h2 h3 h4 h5 h6 h7 h8 h9
      omega
  all_goals
    next h =>
      subst ht
      exact .inl ⟨_, rfl, BitVec.eq_of_toNat_eq (by rw [h]; rfl)⟩

theorem eq_regAddr_of_targetOf {a : Addr} {r : PortReg} (h : targetOf a = .reg r) : a = regAddr r := by
  rcases targetOf_cases a with ⟨r', h', ha⟩ | ⟨k, i, h', -⟩ | ⟨i, j, h', -⟩ | ⟨h', -⟩
  · rw [h] at h'; cases h'; exact ha
  all_goals rw [h] at h'; cases h'

theorem bankAddr_lt (k : Bank) {i : Nat} (hi : i < 512) : 0x800 ≤ bankAddr k i ∧ bankAddr k i < 0x1000 := by
  cases k <;> simp only [bankAddr, bankNumber] <;> omega

theorem matrixAddr_lt {i j : Nat} (hi : i < 512) (hj : j < 256) :
    0x20000 ≤ matrixAddr i j ∧ matrixAddr i j < 0x40000 := by
  simp only [matrixAddr]; omega

/-- The address of `V[k][i]` names `V[k][i]` (R55). -/
theorem targetOf_bankAddr (k : Bank) {i : Nat} (hi : i < 512) :
    targetOf (BitVec.ofNat 18 (bankAddr k i)) = .bank k i := by
  obtain ⟨h1, h2⟩ := bankAddr_lt k hi
  have hn : (BitVec.ofNat 18 (bankAddr k i)).toNat = bankAddr k i := by
    rw [BitVec.toNat_ofNat]; exact Nat.mod_eq_of_lt (by omega)
  rcases targetOf_cases (BitVec.ofNat 18 (bankAddr k i)) with ⟨r, -, h⟩ | ⟨k', i', h, hi', h'⟩ |
    ⟨x, y, -, hx, hy, h'⟩ | ⟨-, h⟩
  · have := congrArg BitVec.toNat h
    rw [hn] at this
    cases r <;> simp [regAddr] at this <;> omega
  · rw [hn] at h'
    obtain ⟨rfl, rfl⟩ := bankAddr_inj hi hi' h'
    exact h
  · rw [hn] at h'; exact absurd h' (bankAddr_ne_matrixAddr k hi x y)
  · omega

/-- The address of `A[i][j]` names `A[i][j]` (R56). -/
theorem targetOf_matrixAddr {i j : Nat} (hi : i < 512) (hj : j < 256) :
    targetOf (BitVec.ofNat 18 (matrixAddr i j)) = .matrix i j := by
  obtain ⟨h1, h2⟩ := matrixAddr_lt hi hj
  have hn : (BitVec.ofNat 18 (matrixAddr i j)).toNat = matrixAddr i j := by
    rw [BitVec.toNat_ofNat]; exact Nat.mod_eq_of_lt (by omega)
  rcases targetOf_cases (BitVec.ofNat 18 (matrixAddr i j)) with ⟨r, -, h⟩ | ⟨k, x, -, hx, h'⟩ |
    ⟨x, y, h, hx, hy, h'⟩ | ⟨-, h⟩
  · have := congrArg BitVec.toNat h
    rw [hn] at this
    cases r <;> simp [regAddr] at this <;> omega
  · rw [hn] at h'; exact absurd h'.symm (bankAddr_ne_matrixAddr k hx i j)
  · rw [hn] at h'
    have : i = x ∧ j = y := by simp only [matrixAddr] at h'; omega
    obtain ⟨rfl, rfl⟩ := this
    exact h
  · omega

/-! ### Fault entry and the execution of a word -/

/-- Fault entry answers a next state that is halted and differs in `FAULT` and `FCMD` only (R144). -/
theorem raiseFault_next {c : FaultCause} {w : Word} {s t : State} (h : raiseFault c w s = .next t) :
    t = { s with fault := faultCode c, fcmd := w } := by
  unfold raiseFault at h; injection h with h; exact h.symm

/-- A command word that decodes runs its command's rule (R91). -/
theorem execWord_command {w : Word} {i : Instr} (h : decode w = .command i) (s : State) :
    execWord w s = exec i s := by
  unfold execWord; rw [h]

/-- A word that is Illegal takes the ILLEGAL fault with the whole word in `FCMD` (R91, R143). -/
theorem execWord_illegal {w : Word} {why : IllegalWord} (h : decode w = .illegal why) (s : State) :
    execWord w s = .next { s with fault := faultCode .illegal, fcmd := w } := by
  unfold execWord; rw [h]; rfl

/-- The answer of a CMD write has a next state exactly when the command has one, and only adds the response. -/
theorem answerCommand_next {o : Host.Outcome State Fault Refusal} {t : State} (h : answerCommand o = .next t) :
    ∃ s, o = .next s ∧ t = respond (if s.halted then errorResponse else doneResponse) s := by
  cases o with
  | next s => exact ⟨s, rfl, by simpa [answerCommand] using h.symm⟩
  | fault r => cases h
  | refused r => cases h

/-! ### The transactions -/

theorem portRead_reg (r : PortReg) (s : State) : portRead (regAddr r) s = dataResponse (readReg s r) := by
  simp [portRead]

theorem portRead_bank (s : State) (k : Bank) {i : Nat} (hi : i < 512) :
    portRead (BitVec.ofNat 18 (bankAddr k i)) s = dataResponse ((s.v k i).setWidth 32) := by
  simp [portRead, targetOf_bankAddr k hi]

theorem portRead_matrix (s : State) {i j : Nat} (hi : i < 512) (hj : j < 256) :
    portRead (BitVec.ofNat 18 (matrixAddr i j)) s = dataResponse ((s.a i j).setWidth 32) := by
  simp [portRead, targetOf_matrixAddr hi hj]

/-- Everything a port write can do (R59): CTRL; the refusal while halted; a command; a store into `S`, a bank or the
matrix; the refusal of a read-only register or of an unmapped address. -/
theorem portWrite_cases {a : Addr} {d : Word} {s t : State} (h : portWrite a d s = .next t) :
    (a = regAddr .ctrl ∧ t = respond doneResponse (writeCtrl d s)) ∨
    (a ≠ regAddr .ctrl ∧ s.halted = true ∧ t = respond errorResponse s) ∨
    (a = regAddr .cmd ∧ s.halted = false ∧ answerCommand (execWord d s) = .next t) ∨
    (a = regAddr .s ∧ s.halted = false ∧ t = respond doneResponse { s with s := d.setWidth 16 }) ∨
    (∃ k i, i < 512 ∧ a.toNat = bankAddr k i ∧ s.halted = false ∧
      t = respond doneResponse (s.withEntry (bankAddr k i) (d.setWidth 16))) ∨
    (∃ i j, i < 512 ∧ j < 256 ∧ a.toNat = matrixAddr i j ∧ s.halted = false ∧
      t = respond doneResponse (s.withEntry (matrixAddr i j) (d.setWidth 16))) ∨
    (((∃ r, r ≠ .cmd ∧ r ≠ .ctrl ∧ r ≠ .s ∧ a = regAddr r) ∨ targetOf a = .unmapped) ∧ s.halted = false ∧
      t = respond errorResponse s) := by
  unfold portWrite at h
  split_ifs at h with hc hh
  · unfold portWriteCtrl at h; injection h with h
    exact .inl ⟨eq_regAddr_of_targetOf hc, h.symm⟩
  · injection h with h
    exact .inr (.inl ⟨fun ha => hc (ha ▸ targetOf_regAddr .ctrl), hh, h.symm⟩)
  · have hh : s.halted = false := by simpa using hh
    rcases targetOf_cases a with ⟨r, ht, ha⟩ | ⟨k, i, ht, hi, ha⟩ | ⟨i, j, ht, hi, hj, ha⟩ | ⟨ht, -⟩ <;>
      rw [ht] at h
    · cases r <;> simp only [portWriteRunning] at h
      case cmd => exact .inr (.inr (.inl ⟨ha, hh, h⟩))
      case s => injection h with h; exact .inr (.inr (.inr (.inl ⟨ha, hh, h.symm⟩)))
      case ctrl => exact absurd ht hc
      all_goals
        injection h with h
        exact .inr (.inr (.inr (.inr (.inr (.inr
          ⟨.inl ⟨_, by decide, by decide, by decide, ha⟩, hh, h.symm⟩)))))
    · simp only [portWriteRunning] at h; injection h with h
      exact .inr (.inr (.inr (.inr (.inl ⟨k, i, hi, ha, hh, h.symm⟩))))
    · simp only [portWriteRunning] at h; injection h with h
      exact .inr (.inr (.inr (.inr (.inr (.inl ⟨i, j, hi, hj, ha, hh, h.symm⟩)))))
    · simp only [portWriteRunning] at h; injection h with h
      exact .inr (.inr (.inr (.inr (.inr (.inr ⟨.inr ht, hh, h.symm⟩)))))

/-! ### The step -/

theorem step_of_nil {s : State} (h : s.pending = []) : step s = .next (idle s) := by
  unfold step nextInput; rw [h]

theorem step_of_cons {s : State} {i : Input} {rest : List Input} (h : s.pending = i :: rest) :
    step s = acceptInput i { s with pending := rest } := by
  unfold step nextInput; rw [h]

@[simp] theorem step_presentInput (i : Input) (s : State) : step (presentInput i s) = acceptInput i s := rfl

theorem step_read (a : Addr) (s : State) :
    step (presentInput (.transaction (.read a)) s) = .next (respond (portRead a s) s) := rfl

theorem step_write (a : Addr) (d : Word) (s : State) :
    step (presentInput (.transaction (.write a d)) s) = portWrite a d s := rfl

theorem step_hardReset (ab : Option Transaction) (s : State) :
    step (presentInput (.hardReset ab) s) = .next (hardReset s) := rfl

/-- On a block that is not halted a CMD write is the execution of the word, answered (R59). -/
theorem portWrite_cmd {s : State} (h : s.fault = 0#3) (w : Word) :
    portWrite (regAddr .cmd) w s = answerCommand (execWord w s) := by
  rw [portWrite, targetOf_regAddr, if_neg (by decide), if_neg (by simp [State.halted, h])]; rfl

/-- A write to CTRL (R59). -/
theorem portWrite_ctrl (s : State) (d : Word) :
    portWrite (regAddr .ctrl) d s = .next (respond doneResponse (writeCtrl d s)) := by
  rw [portWrite, targetOf_regAddr, if_pos rfl]; rfl

/-- While halted every write but to CTRL is refused (R145). -/
theorem portWrite_halted {s : State} (h : s.fault ≠ 0#3) {a : Addr} (ha : a ≠ regAddr .ctrl) (d : Word) :
    portWrite a d s = .next (respond errorResponse s) := by
  rw [portWrite, if_neg fun hc => ha (eq_regAddr_of_targetOf hc), if_pos (by simp [State.halted, h])]

/-- Everything a step can do: idle, a hard reset, a read, or a write (R52). -/
theorem step_cases {s t : State} (h : step s = .next t) :
    (s.pending = [] ∧ t = idle s) ∨
    ∃ i rest, s.pending = i :: rest ∧
      ((∃ ab, i = .hardReset ab ∧ t = hardReset { s with pending := rest }) ∨
      (∃ a, i = .transaction (.read a) ∧
        t = respond (portRead a s) { s with pending := rest }) ∨
      (∃ a d, i = .transaction (.write a d) ∧ portWrite a d { s with pending := rest } = .next t)) := by
  cases hp : s.pending with
  | nil => rw [step_of_nil hp] at h; injection h with h; exact .inl ⟨rfl, h.symm⟩
  | cons i rest =>
    rw [step_of_cons hp] at h
    refine .inr ⟨i, rest, rfl, ?_⟩
    match i with
    | .hardReset ab => unfold acceptInput at h; injection h with h; exact .inl ⟨ab, rfl, h.symm⟩
    | .transaction (.read a) =>
      unfold acceptInput runTransaction at h; injection h with h; exact .inr (.inl ⟨a, rfl, h.symm⟩)
    | .transaction (.write a d) => exact .inr (.inr ⟨a, d, rfl, h⟩)

end Sys2Proof.Machine
end

