-- ==== Sys2Proof/Tests/Slice0.lean ====
section
/-! SUPPORT. Tests on the spec's own examples and vectors (spec/95_test_vectors.md; the ids in the comments are its),
the well-formedness smoke, the decoding of words written out from the encoding, and one witness for each statement
that has hypotheses. -/

namespace Sys2Proof.Tests

open Sys2Proof.Machine

/-! ### Helpers -/

/-- The state an outcome gives, or the state after reset. -/
def after (o : Host.Outcome State Fault Refusal) : State :=
  match o with
  | .next s => s
  | .fault _ => State.reset
  | .refused _ => State.reset

/-- `s` after the host has presented `i`. -/
def feed (s : State) (i : Input) : State := after (step (presentInput i s))

/-- `V[k][0..]` set from a list of numbers. -/
def putBank (s : State) (k : Bank) (i : Nat) : List Nat → State
  | [] => s
  | x :: xs => putBank (s.withEntry (bankAddr k i) (BitVec.ofNat 16 x)) k (i + 1) xs

/-- `A[i][0..1]` set. -/
def putRow (s : State) (i x y : Nat) : State :=
  (s.withEntry (matrixAddr i 0) (BitVec.ofNat 16 x)).withEntry (matrixAddr i 1) (BitVec.ofNat 16 y)

/-- Start state T17 of spec/95_test_vectors.md. -/
def t17 : State :=
  putBank (putBank (putRow (putRow (putRow (putRow { State.reset with n := 2#9, q := 17#16 } 0 3 14) 1 7 2) 2 16 9)
    3 5 11) .v0 0 [4, 13]) .v1 0 [0x0001, 0xFFFF, 0x0000, 0x0002]

/-- Start state T17b of spec/95_test_vectors.md, with `S = x`. -/
def t17b (x : Nat) : State :=
  { putBank (putBank (putBank t17 .v1 0 [1, 0, 1, 1]) .v2 0 [8, 2, 11, 12]) .v3 0 [7, 0, 11, 10] with
    locked := true, s := BitVec.ofNat 16 x }

/-- The first four entries of a bank. -/
def four (s : State) (k : Bank) : List Nat := [(s.v k 0).toNat, (s.v k 1).toNat, (s.v k 2).toNat, (s.v k 3).toNat]

/-! ### Well-formedness: each check refuses an ill-formed term (R113) -/

theorem test_aliased_mvm_ill_formed : (Instr.mvm .v1 .v1).wellFormed = false := by decide
theorem test_aliased_mvma_ill_formed : (Instr.mvma .v2 .v2 .v0).wellFormed = false := by decide
theorem test_aliased_mvmt_ill_formed : (Instr.mvmt .v3 .v3).wellFormed = false := by decide
theorem test_mvma_addend_may_alias : (Instr.mvma .v2 .v0 .v2).wellFormed = true := by decide

/-! ### Decoding: words written out bit by bit from rules R81 and R82, fields op vd vs1 vs2 r17 L imm -/

theorem test_decode_nop : decode 0b00000000_00_00_00_0_0_0000000000000000#32 = .command .nop := by decide
theorem test_decode_setn : decode 0b00000001_00_00_00_0_0_0000000010000000#32 = .command (.setn 128#16) := by decide
theorem test_decode_setq : decode 0b00000010_00_00_00_0_0_0000100000000000#32 = .command (.setq 2048#16) := by decide
theorem test_decode_mvm : decode 0b00010000_11_10_00_0_0_0000000000000000#32 = .command (.mvm .v3 .v2) := by decide
theorem test_decode_mvma : decode 0b00010001_00_01_11_0_0_0000000000000000#32 = .command (.mvma .v0 .v1 .v3) := by decide
theorem test_decode_mvmt : decode 0b00010010_11_01_00_0_0_0000000000000000#32 = .command (.mvmt .v3 .v1) := by decide
theorem test_decode_dot : decode 0b00100000_00_11_10_0_1_0000000000000000#32 = .command (.dot .v3 .v2 .m) := by decide
theorem test_decode_dotadd : decode 0b00100001_00_10_01_0_1_0000000000000000#32 = .command (.dotadd .v2 .v1 .m) := by
  decide
theorem test_decode_dotsub : decode 0b00100010_00_00_11_0_0_0000000000000000#32 = .command (.dotsub .v0 .v3 .n) := by
  decide
theorem test_decode_qenc : decode 0b00110000_00_00_00_0_0_0000000000000010#32 = .command (.qenc 2#16) := by decide
theorem test_decode_qdec : decode 0b00110001_00_00_00_0_0_0000000000000000#32 = .command .qdec := by decide

/-- The illegal words of part 2, section DEC, in the order of its table. -/
theorem test_decode_illegal :
    ([0x00000001#32, 0x00010000#32, 0x00800000#32, 0x01020000#32, 0x03000000#32, 0x0F000000#32, 0x10000000#32,
      0x10500000#32, 0x10A00000#32, 0x10F00000#32, 0x10440000#32, 0x11840001#32, 0x13000000#32, 0x1F000000#32,
      0x20020000#32, 0x20400000#32, 0x20000100#32, 0x23000000#32, 0x2F000000#32, 0x30020000#32, 0x31000001#32,
      0x31010000#32, 0x32000000#32, 0x80000000#32, 0xFFFFFFFF#32].all fun w =>
        match decode w with
        | .command _ => false
        | .illegal _ => true) = true := by decide

/-! ### The commands -/

/-- C4 and C5 of section CFG. -/
theorem test_setn : (after (exec (.setn 256#16) State.reset)).n = 256#9 ∧
    (after (exec (.setn 257#16) State.reset)).fault = 1#3 := by decide

/-- C9 and C12 of section CFG. -/
theorem test_setq : (after (exec (.setq 65535#16) State.reset)).half = 32767 ∧
    (after (exec (.setq 1#16) State.reset)).fcmd = 0x02000001#32 := by decide

/-- C1: NOP sets nothing. -/
theorem test_nop : after (exec .nop t17) = t17 := by decide

/-- M1. -/
theorem test_mvm : four (after (exec (.mvm .v3 .v0) t17)) .v3 = [7, 3, 11, 10] := by decide
/-- M13: entries outside the active region are neither read nor written. -/
theorem test_mvm_active_region :
    ((after (exec (.mvm .v3 .v0) ((putBank (putBank t17 .v3 4 [99]) .v0 2 [9]).withEntry (matrixAddr 0 2) 5#16))).v .v3 4,
      four (after (exec (.mvm .v3 .v0) ((putBank t17 .v0 2 [9]).withEntry (matrixAddr 0 2) 5#16))) .v3) =
    (99#16, [7, 3, 11, 10]) := by decide
/-- M2. -/
theorem test_mvma : four (after (exec (.mvma .v2 .v0 .v1) t17)) .v2 = [8, 2, 11, 12] := by decide
/-- M6: the addend 0x8000 is −32768. -/
theorem test_mvma_signed : four (after (exec (.mvma .v2 .v0 .v1) (putBank t17 .v1 0 [0x8000]))) .v2 = [15, 2, 11, 12] := by
  decide
/-- M9: a selector that is not binary. -/
theorem test_mvmt : four (after (exec (.mvmt .v3 .v1) (putBank t17 .v1 0 [2, 0, 1, 3]))) .v3 = [3, 2, 0, 0] := by decide
/-- M12: entries 2 and 3 of the destination are stale. -/
theorem test_mvmt_stale : four (after (exec (.mvmt .v3 .v1) (t17b 0))) .v3 = [7, 0, 11, 10] := by decide
/-- D5 and D6: the two lengths. -/
theorem test_dot : ((after (exec (.dot .v2 .v3 .n) (t17b 9))).s, (after (exec (.dot .v2 .v3 .m) (t17b 9))).s) =
    (5#16, 8#16) := by decide
/-- D7 and D9. -/
theorem test_dotadd : ((after (exec (.dotadd .v2 .v1 .m) (t17b 8))).s,
    (after (exec (.dotadd .v2 .v1 .m) (t17b 0xFFFF))).s) = (5#16, 14#16) := by decide
/-- D11 and D15. -/
theorem test_dotsub : ((after (exec (.dotsub .v0 .v3 .n) (t17b 5))).s,
    (after (exec (.dotsub .v1 .v1 .n) (t17b 0))).s) = (11#16, 16#16) := by decide
/-- Q1: modulus 17 and the contract violation. -/
theorem test_qenc : ((after (exec (.qenc 1#16) t17)).s, (after (exec (.qenc 2#16) t17)).fault) = (8#16, 2#3) := by decide
/-- Q2: QDEC for modulus 17 and every raw value. -/
theorem test_qdec : (List.range 17).map (fun raw => (after (exec .qdec (t17b raw))).bit.toNat) =
    [0, 0, 0, 0, 1, 1, 1, 1, 1, 1, 1, 1, 1, 0, 0, 0, 0] := by decide
/-- Q4: `S = Q`. -/
theorem test_qdec_contract : (after (exec .qdec (t17b 17))).fault = 2#3 := by decide

/-! ### The port, the step and the faults -/

/-- A1, A3, A4, A5, A7 of section PORT. -/
theorem test_port_read_unmapped : (feed State.reset (readInput 0x0000B)).rsp = some errorResponse := by decide
theorem test_port_write_read_only : (feed State.reset (writeInput 0x00007 17#32)).rsp = some errorResponse := by decide
theorem test_port_write_s : (feed State.reset (writeInput 0x00009 0x12345678#32)).s = 0x5678#16 := by decide
theorem test_port_write_bank : (feed State.reset (writeInput 0x00A01 0xFFFFFFFF#32)).v .v1 1 = 0xFFFF#16 := by decide
theorem test_port_write_matrix : (feed State.reset (writeInput 0x3FFFF 3#32)).a 511 255 = 3#16 := by decide

/-- P0: the derived views after reset. -/
theorem test_reset_views : [readReg State.reset .m, readReg State.reset .half, readReg State.reset .status] =
    [256#32, 1024#32, 0#32] := by decide

/-- F1: a second command while halted is refused and `FCMD` stays. -/
theorem test_halted_refuses :
    (feed (feed State.reset (commandWrite 0x30000002#32)) (commandWrite 0#32)).fcmd = 0x30000002#32 := by decide

/-- C16: the lock check comes before the value check. -/
theorem test_lock_before_value :
    (feed (feed State.reset (commandInput .qdec)) (commandInput (.setq 1#16))).fault = 4#3 := by decide

/-- A14: STATUS after a lock and a fault, and `S` kept. -/
theorem test_status_locked_halted :
    (feed (feed State.reset (commandInput (.qenc 1#16))) (commandInput (.qenc 2#16))).status = 3#32 := by decide

/-- F4: a soft reset leaves the halted state and zeroizes. -/
theorem test_soft_reset : (feed (feed t17 (commandWrite 0xFFFFFFFF#32)) softResetInput).arch = State.reset := by decide

/-- A word placed by `withFetchWord` runs as the first command after reset. -/
theorem test_fetch_word : (after (step (State.reset.withFetchWord 32 0x30000001))).s = 1024#16 := by decide

/-- M14: MVM at the default size runs as the first command after reset and sets `LOCKED`. -/
theorem test_fetch_mvm : (after (step (State.reset.withFetchWord 32 0x10400000))).locked = true := by decide

/-- The boundaries of the address map (R53): `err` of a read at the first and last address of each range. -/
theorem test_address_boundaries :
    ([0x00000, 0x0000A, 0x0000B, 0x007FF, 0x00800, 0x00FFF, 0x01000, 0x1FFFF, 0x20000, 0x3FFFF].map fun a =>
      (portRead (BitVec.ofNat 18 a) State.reset).err) =
    [false, false, true, true, false, false, true, true, false, false] := by decide

/-! ### Witnesses: a state and operands that meet the hypotheses of each statement together -/

theorem t17_inv : t17.Inv where
  one_le_n := by decide
  n_le := by decide
  two_le_q := by decide
  fault_mem := .inl (by decide)
  fcmd_zero := by decide
  mem_wf := by decide
  mem_mapped := by decide

theorem t17b_inv : (t17b 8).Inv where
  one_le_n := by decide
  n_le := by decide
  two_le_q := by decide
  fault_mem := .inl (by decide)
  fcmd_zero := by decide
  mem_wf := by decide
  mem_mapped := by decide

/-- A halted state: T17 after QENC 2. -/
def t17Halted : State := after (exec (.qenc 2#16) t17)

theorem wit_SoftAndHardResetAgree : (1#32 : Word).getLsbD 0 = true := by decide

theorem wit_StepKeepsInvariants : (presentInput (commandInput (.mvm .v3 .v0)) t17).Inv ∧
    ∃ t, step (presentInput (commandInput (.mvm .v3 .v0)) t17) = .next t :=
  ⟨⟨by decide, by decide, by decide, .inl (by decide), by decide, by decide, by decide⟩, _, rfl⟩

theorem wit_ReachableStatesMeetR40 : Reachable (feed State.reset (commandInput (.qenc 1#16))) :=
  .next (commandInput (.qenc 1#16)) .reset rfl

theorem wit_EveryStepAnswers :
    ((presentInput (readInput 5) t17).pending = .transaction (.read 5#18) :: []) ∧
    ((presentInput (.hardReset none) t17).pending = .hardReset none :: []) := by decide

theorem wit_IdleStepKeepsState : t17.pending = [] := by decide

theorem wit_StepRunsDecodedCommand :
    (presentInput (commandWrite 0x10C00000#32) t17).pending = .transaction (.write 0x00000#18 0x10C00000#32) :: [] ∧
    t17.fault = 0#3 ∧ decode 0x10C00000#32 = .command (.mvm .v3 .v0) ∧
    ∃ t, exec (.mvm .v3 .v0) { presentInput (commandWrite 0x10C00000#32) t17 with pending := [] } = .next t :=
  ⟨by decide, by decide, by decide, _, rfl⟩

theorem wit_FetchWordIsNextCommand : t17.fault = 0#3 ∧ decodeTableWord 32 0x31000000 = some .qdec ∧
    ∃ t, exec .qdec t17 = .next t :=
  ⟨by decide, by decide, _, rfl⟩

theorem wit_DecodeOfEncodeIsIdentity : (Instr.mvma .v2 .v0 .v2).WellFormed := by decide

theorem wit_EncodeOfDecodeIsIdentity : decode 0x12D00000#32 = .command (.mvmt .v3 .v1) := by decide

/-- One word for each of the five format clauses, and for each field of the last. -/
theorem wit_MustBeZeroBitMakesIllegal :
    (bits (0x31000001#32).toNat 31 24 = 0x31 ∧ bits (0x31000001#32).toNat 23 0 ≠ 0) ∧
    (bits (0x30010000#32).toNat 31 24 = 0x30 ∧ bits (0x30010000#32).toNat 23 16 ≠ 0) ∧
    (bits (0x10C80000#32).toNat 31 24 = 0x10 ∧ bits (0x10C80000#32).toNat 19 0 ≠ 0) ∧
    (bits (0x11860000#32).toNat 31 24 = 0x11 ∧ bits (0x11860000#32).toNat 17 0 ≠ 0) ∧
    (bits (0x20400000#32).toNat 31 24 = 0x20 ∧ bits (0x20400000#32).toNat 23 22 ≠ 0) ∧
    (bits (0x21020000#32).toNat 31 24 = 0x21 ∧ bits (0x21020000#32).toNat 17 17 ≠ 0) ∧
    (bits (0x22008000#32).toNat 31 24 = 0x22 ∧ bits (0x22008000#32).toNat 15 0 ≠ 0) := by decide

theorem wit_UndefinedOpcodesAreIllegal : bits (0xFF000000#32).toNat 31 24 = 0xFF := by decide

theorem wit_NopDoesNothing : bits (0x00800000#32).toNat 31 24 = 0 ∧ bits (0x00800000#32).toNat 23 0 ≠ 0 := by decide

/-- Each clause of SETN and SETQ at its boundary: locked; 0 and 257, 0 and 1; 1 and 256, 2. -/
theorem wit_SetnWritesNOrFaults : (t17b 0).locked = true ∧ t17.locked = false ∧ (0#16).toNat = 0 ∧
    256 < (257#16).toNat ∧ 1 ≤ (1#16).toNat ∧ (256#16).toNat ≤ 256 := by decide
theorem wit_SetqWritesQOrFaults : (t17b 0).locked = true ∧ t17.locked = false ∧ (1#16).toNat ≤ 1 ∧
    2 ≤ (2#16).toNat := by decide
theorem wit_ParametersSetInEitherOrder : t17.locked = false ∧ 1 ≤ (256#16).toNat ∧ (256#16).toNat ≤ 256 ∧
    2 ≤ (2#16).toNat := by decide

theorem wit_MvmComputesMatrixVector : t17.Inv ∧ Bank.v3 ≠ .v0 := ⟨t17_inv, by decide⟩
theorem wit_MvmaAddsSignedAddend : t17.Inv ∧ Bank.v2 ≠ .v0 := ⟨t17_inv, by decide⟩
theorem wit_MvmtComputesTransposed : t17.Inv ∧ Bank.v3 ≠ .v1 := ⟨t17_inv, by decide⟩
theorem wit_AliasedDestinationRaisesIllegal : t17.fault = 0#3 ∧ Bank.v2 ≠ .v1 := by decide
theorem wit_MvmaWithZeroAddendIsMvm : Bank.v3 ≠ .v0 ∧ ∀ i < 2 * t17.n.toNat, t17.v .v2 i = 0#16 := by decide

theorem wit_DotWritesDotProduct : t17.q ≠ 0#16 := by decide
theorem wit_DotaddAddsScalar : (t17b 0xFFFF).q ≠ 0#16 := by decide
theorem wit_DotsubSubtractsFromScalar : (t17b 0).q ≠ 0#16 := by decide

/-- The noise of T17: `e = (1, −1, 0, 2)`. -/
def noise (i : Nat) : Int := [1, -1, 0, 2].getD i 0

/-- T17b with `S = 8`: `b`, `u` and `S` are what MVMA, MVMT and QENC 1 leave there (programs P1 and P2). -/
theorem wit_DecryptionLeavesEncodedBitPlusNoise : (t17b 8).Inv ∧
    (∀ i < 2 * (t17b 8).n.toNat, (((t17b 8).v .v2 i).toNat : Int) =
      (∑ j ∈ Finset.range (t17b 8).n.toNat, (((t17b 8).a i j).toNat : Int) * (((t17b 8).v .v0 j).toNat : Int) +
        noise i) % ((t17b 8).q.toNat : Int)) ∧
    (∀ j < (t17b 8).n.toNat, ((t17b 8).v .v3 j).toNat =
      (∑ i ∈ Finset.range (2 * (t17b 8).n.toNat), ((t17b 8).a i j).toNat * ((t17b 8).v .v1 i).toNat) %
        (t17b 8).q.toNat) ∧
    (t17b 8).s.toNat = 1 * ((t17b 8).q.toNat / 2) :=
  ⟨t17b_inv, by decide, by decide, by decide⟩

/-- The same with a bit and with small noise: `e·r = 1 + 0 + 2 = 3` and `2·3 < 8`. -/
theorem wit_SmallNoiseDecryptsToEncryptedBit : (t17b 8).Inv ∧ (1 ≤ 1) ∧
    (∀ i < 2 * (t17b 8).n.toNat, (((t17b 8).v .v2 i).toNat : Int) =
      (∑ j ∈ Finset.range (t17b 8).n.toNat, (((t17b 8).a i j).toNat : Int) * (((t17b 8).v .v0 j).toNat : Int) +
        noise i) % ((t17b 8).q.toNat : Int)) ∧
    (∀ j < (t17b 8).n.toNat, ((t17b 8).v .v3 j).toNat =
      (∑ i ∈ Finset.range (2 * (t17b 8).n.toNat), ((t17b 8).a i j).toNat * ((t17b 8).v .v1 i).toNat) %
        (t17b 8).q.toNat) ∧
    (t17b 8).s.toNat = 1 * ((t17b 8).q.toNat / 2) ∧
    2 * |∑ i ∈ Finset.range (2 * (t17b 8).n.toNat), noise i * (((t17b 8).v .v1 i).toNat : Int)| <
      ((t17b 8).q.toNat / 2 : Nat) :=
  ⟨t17b_inv, by decide, by decide, by decide, by decide, by decide⟩

theorem wit_QencEncodesBitOrFaults : 2 ≤ (2#16).toNat ∧ (1#16).toNat ≤ 1 ∧ 2 ≤ t17.q.toNat := by decide
theorem wit_QdecDecidesNearestOrFaults : (t17b 17).q.toNat ≤ (t17b 17).s.toNat ∧
    (t17b 16).s.toNat < (t17b 16).q.toNat := by decide
/-- 17, 7, 2, 3 and a modulus `4k`, each with an `S` below it. -/
theorem wit_QdecClosedForm : (t17b 4).s.toNat < (t17b 4).q.toNat ∧ (t17b 4).q.toNat = 17 ∧
    ([7, 2, 3, 2048].all fun q => decide (({ t17b 1 with q := BitVec.ofNat 16 q } : State).s.toNat < q)) = true ∧
    (2048#16).toNat = 4 * 512 := by decide
theorem wit_EncodeThenDecideReturnsBit : 2 ≤ t17.q.toNat ∧ (1#16).toNat ≤ 1 ∧ (t17b 3).s.toNat < (t17b 3).q.toNat := by
  decide

/-- One word for each cause. -/
theorem wit_ReportedFaultIsTakenPrecisely : t17.fault = 0#3 ∧ reportedFault 0x01000000#32 t17 = some .param ∧
    reportedFault 0x30000002#32 t17 = some .contract ∧ reportedFault 0x10500000#32 t17 = some .illegal := by decide
theorem wit_UnreportedCommandCompletes : t17.fault = 0#3 ∧ reportedFault 0x10C00000#32 t17 = none := by decide
theorem wit_OnlyFaultingCommandsHalt : t17.fault = 0#3 ∧
    ∃ t, step (presentInput (commandWrite 0x30000002#32) t17) = .next t ∧ t.fault ≠ 0#3 :=
  ⟨by decide, _, rfl, by decide⟩
theorem wit_HaltedBlockIsFrozen : t17Halted.fault ≠ 0#3 ∧ (0x00000#18 : Addr) ≠ 0x00004#18 ∧
    (0xFFFFFFFE#32 : Word).getLsbD 0 = false := by decide
theorem wit_OnlyResetLeavesHalt : t17Halted.fault ≠ 0#3 ∧
    ∃ t, step (presentInput softResetInput t17Halted) = .next t ∧ t.fault = 0#3 :=
  ⟨by decide, _, rfl, by decide⟩
theorem wit_PortErrorsChangeNothing : (0x0000B#18).toNat = 0x0000B ∧ (0x1FFFF#18).toNat = 0x1FFFF ∧
    (0x0000A#18).toNat = 0xA ∧ t17Halted.fault ≠ 0#3 := by decide
/-- The first and last address of each range clause, which no other clause takes in. -/
theorem wit_PortReadReturnsTable : (0x00000#18).toNat = 0x0 ∧ (0x0000A#18).toNat = 0xA ∧
    (0x00800 ≤ (0x00800#18).toNat ∧ (0x00FFF#18).toNat ≤ 0x00FFF) ∧ 0x20000 ≤ (0x20000#18).toNat ∧
    (0x0000B ≤ (0x0000B#18).toNat ∧ (0x007FF#18).toNat ≤ 0x007FF) ∧
    (0x01000 ≤ (0x01000#18).toNat ∧ (0x1FFFF#18).toNat ≤ 0x1FFFF) := by decide
theorem wit_AddressMapNamesEntries : 511 < 512 ∧ 255 < 256 ∧ 0x00800 ≤ (0x00FFF#18).toNat ∧
    (0x00FFF#18).toNat ≤ 0x00FFF ∧ 0x20000 ≤ (0x3FFFF#18).toNat := by decide
theorem wit_PortWriteStoresLowHalf : t17.Inv ∧ t17.fault = 0#3 ∧ 0x20000 ≤ (0x3FFFF#18).toNat :=
  ⟨t17_inv, by decide, by decide⟩
theorem wit_PortWritesAreIdempotent : t17.Inv ∧ (0x00A01#18 : Addr) ≠ 0x00000#18 ∧
    ∃ t, step (presentInput (.transaction (.write 0x00A01#18 7#32)) t17) = .next t :=
  ⟨t17_inv, by decide, _, rfl⟩

theorem wit_ComputeCommandsLock : ∃ t, exec (.dot .v0 .v3 .n) t17 = .next t := ⟨_, rfl⟩
theorem wit_LockedParametersAreImmutable : (t17b 0).locked = true ∧ ¬ IsReset (commandInput (.setn 4#16)) ∧
    ∃ t, step (presentInput (commandInput (.setn 4#16)) (t17b 0)) = .next t :=
  ⟨by decide, fun h => absurd h.1 (by decide), _, rfl⟩
theorem wit_NoCommandWritesMatrix : t17.Inv ∧ ∃ t, exec (.mvm .v3 .v0) t17 = .next t := ⟨t17_inv, _, rfl⟩
theorem wit_OnlyQdecAndResetWriteBit :
    ∃ t, step (presentInput (commandInput .qdec) (t17b 8)) = .next t ∧ t.bit ≠ (t17b 8).bit :=
  ⟨_, rfl, by decide⟩
theorem wit_CommandResultsAreResidues : t17.Inv ∧ ∃ t, exec (.mvmt .v3 .v1) t17 = .next t := ⟨t17_inv, _, rfl⟩

/-- T17 with other values at the first entries outside the active regions, and another `S`. -/
def t17Outside : State :=
  { (putBank (putBank (putBank t17 .v0 2 [9]) .v1 4 [9]) .v2 4 [9]).withEntry (matrixAddr 0 2) 5#16 with s := 3#16 }

/-- MVM v3, v0; MVMA v3, v0, v1; MVMT v3, v1; DOT at `n` of V0, V1 (which differ at entry 2 of V0) and at `m` of V1,
V2 (which differ at entry 4 of both), with `S` different; DOTADD and DOTSUB with `S` put back. -/
theorem wit_CommandsReadOnlyActiveRegion :
    (t17.n = t17Outside.n ∧ t17.q = t17Outside.q) ∧ (t17.Inv ∧ t17Outside.Inv) ∧
    (Bank.v3 ≠ .v0 ∧ Bank.v3 ≠ .v1) ∧
    (∀ i < 2 * t17.n.toNat, ∀ j < t17.n.toNat, t17.a i j = t17Outside.a i j) ∧
    (∀ j < t17.n.toNat, t17.v .v0 j = t17Outside.v .v0 j) ∧
    (∀ i < 2 * t17.n.toNat, t17.v .v1 i = t17Outside.v .v1 i) ∧
    (∀ k < (if Len.n = .n then t17.n.toNat else 2 * t17.n.toNat),
      t17.v .v0 k = t17Outside.v .v0 k ∧ t17.v .v1 k = t17Outside.v .v1 k) ∧
    (∀ k < (if Len.m = .n then t17.n.toNat else 2 * t17.n.toNat),
      t17.v .v1 k = t17Outside.v .v1 k ∧ t17.v .v2 k = t17Outside.v .v2 k) ∧
    t17.s = ({ t17Outside with s := 0#16 } : State).s :=
  ⟨by decide, ⟨t17_inv, ⟨by decide, by decide, by decide, .inl (by decide), by decide, by decide, by decide⟩⟩,
    by decide, by decide, by decide, by decide, by decide, by decide, by decide⟩

/-- The two states of the witness do differ just outside each region. -/
theorem test_outside_differs : t17.v .v0 2 ≠ t17Outside.v .v0 2 ∧ t17.v .v1 4 ≠ t17Outside.v .v1 4 ∧
    t17.v .v2 4 ≠ t17Outside.v .v2 4 ∧ t17.a 0 2 ≠ t17Outside.a 0 2 ∧ t17.s ≠ t17Outside.s := by decide

end Sys2Proof.Tests
end

/-! The statements about the state of the block (spec/10_state.md). First what a command can do, said once
(`CommandEffect`), and what an input can do (`InputEffect`); then the invariants of rule R40 under each update; then
the statements, each a case analysis over these effects. -/

namespace Sys2Proof.Machine

/-! ### What a command does: one equation per command, and the fault -/

theorem faultOf_setn_eq_none {imm : BitVec 16} {s : State} :
    faultOf (.setn imm) s = none ↔ s.locked = false ∧ 1 ≤ imm.toNat ∧ imm.toNat ≤ 256 := by
  cases hl : s.locked <;> simp [faultOf, hl]
  omega

theorem faultOf_setq_eq_none {imm : BitVec 16} {s : State} :
    faultOf (.setq imm) s = none ↔ s.locked = false ∧ 2 ≤ imm.toNat := by
  cases hl : s.locked <;> simp [faultOf, hl]
  omega

theorem faultOf_mvm_eq_none {vd vs1 : Bank} {s : State} : faultOf (.mvm vd vs1) s = none ↔ vd ≠ vs1 := by
  simp [faultOf]

theorem faultOf_mvma_eq_none {vd vs1 vs2 : Bank} {s : State} : faultOf (.mvma vd vs1 vs2) s = none ↔ vd ≠ vs1 := by
  simp [faultOf]

theorem faultOf_mvmt_eq_none {vd vs1 : Bank} {s : State} : faultOf (.mvmt vd vs1) s = none ↔ vd ≠ vs1 := by
  simp [faultOf]

theorem faultOf_qenc_eq_none {imm : BitVec 16} {s : State} : faultOf (.qenc imm) s = none ↔ imm.toNat ≤ 1 := by
  simp [faultOf]

theorem faultOf_qdec_eq_none {s : State} : faultOf .qdec s = none ↔ s.s.toNat < s.valQ := by
  simp [faultOf]

theorem exec_nop (s : State) : exec .nop s = .next s := rfl

theorem exec_setn_of_completes {imm : BitVec 16} {s : State} (h : faultOf (.setn imm) s = none) :
    exec (.setn imm) s = .next { s with n := BitVec.ofNat 9 imm.toNat } := by
  obtain ⟨hl, h1, h256⟩ := faultOf_setn_eq_none.1 h
  simp only [exec, execSetn, hl, Config.nMax]
  rw [if_neg (by decide), if_neg (by omega)]

theorem exec_setq_of_completes {imm : BitVec 16} {s : State} (h : faultOf (.setq imm) s = none) :
    exec (.setq imm) s = .next { s with q := imm } := by
  obtain ⟨hl, h2⟩ := faultOf_setq_eq_none.1 h
  simp only [exec, execSetq, hl]
  rw [if_neg (by decide), if_neg (by omega)]

theorem exec_mvm_of_ne {vd vs1 : Bank} (s : State) (h : vd ≠ vs1) :
    exec (.mvm vd vs1) s =
      .next (setLocked (s.withVector vd s.valM fun i => residue (s.rowSum vs1 i) s.valQ)) := if_neg h

theorem exec_mvma_of_ne {vd vs1 : Bank} (vs2 : Bank) (s : State) (h : vd ≠ vs1) :
    exec (.mvma vd vs1 vs2) s =
      .next (setLocked (s.withVector vd s.valM fun i =>
        residue (s.rowSum vs1 i + signed16 (s.v vs2 i)) s.valQ)) := if_neg h

theorem exec_mvmt_of_ne {vd vs1 : Bank} (s : State) (h : vd ≠ vs1) :
    exec (.mvmt vd vs1) s =
      .next (setLocked (s.withVector vd s.valN fun j => residue (s.colSum vs1 j) s.valQ)) := if_neg h

theorem exec_dot (vs1 vs2 : Bank) (len : Len) (s : State) :
    exec (.dot vs1 vs2 len) s = .next (setLocked { s with s := residue (s.dotSum vs1 vs2 len) s.valQ }) := rfl

theorem exec_dotadd (vs1 vs2 : Bank) (len : Len) (s : State) :
    exec (.dotadd vs1 vs2 len) s =
      .next (setLocked { s with s := residue (s.dotSum vs1 vs2 len + unsigned s.s) s.valQ }) := rfl

theorem exec_dotsub (vs1 vs2 : Bank) (len : Len) (s : State) :
    exec (.dotsub vs1 vs2 len) s =
      .next (setLocked { s with s := residue (unsigned s.s - s.dotSum vs1 vs2 len) s.valQ }) := rfl

theorem exec_qenc_of_le_one {imm : BitVec 16} (s : State) (h : imm.toNat ≤ 1) :
    exec (.qenc imm) s = .next (setLocked { s with s := BitVec.ofNat 16 (imm.toNat * s.half) }) :=
  if_neg (by omega)

theorem exec_qdec_of_lt {s : State} (h : s.s.toNat < s.valQ) :
    exec .qdec s = .next (setLocked { s with bit := decideBit s.s.toNat s.valQ }) :=
  if_neg (by omega)

/-- `faultOf` is the fault that `exec` takes, and the word it records is the command's own (R144, R148). -/
theorem exec_of_faultOf {i : Instr} {s : State} {c : FaultCause} (h : faultOf i s = some c) :
    exec i s = .next { s with fault := faultCode c, fcmd := encode i } := by
  cases i with
  | nop | dot | dotadd | dotsub => cases h
  | setn imm =>
    simp only [faultOf] at h
    simp only [exec, execSetn, Config.nMax]
    split_ifs at h with hl hr <;> cases h
    · rw [if_pos hl]; rfl
    · rw [if_neg hl, if_pos (by omega)]; rfl
  | setq imm =>
    simp only [faultOf] at h
    simp only [exec, execSetq]
    split_ifs at h with hl hr <;> cases h
    · rw [if_pos hl]; rfl
    · rw [if_neg hl, if_pos (by omega)]; rfl
  | mvm | mvma | mvmt =>
    simp only [faultOf] at h
    split_ifs at h with hv; cases h
    exact if_pos hv
  | qenc imm =>
    simp only [faultOf] at h
    split_ifs at h with hi; cases h
    exact if_pos (by omega)
  | qdec =>
    simp only [faultOf] at h
    split_ifs at h with hs; cases h
    exact if_pos hs

/-! ### What any command can do -/

/-- Everything a command can do to the state: take its fault; nothing (NOP); write `N` or `Q`, before the lock and in
range; or, a compute command, set `LOCKED` and write residues to at most `M` entries of one bank, a value below `Q` to
`S`, or (QDEC) `BIT`. -/
inductive CommandEffect (s : State) : Instr → State → Prop where
  | fault {i : Instr} {c : FaultCause} (hf : faultOf i s = some c) :
      CommandEffect s i { s with fault := faultCode c, fcmd := encode i }
  | nop : CommandEffect s .nop s
  | setn {imm : BitVec 16} (hl : s.locked = false) (h1 : 1 ≤ imm.toNat) (h256 : imm.toNat ≤ 256) :
      CommandEffect s (.setn imm) { s with n := BitVec.ofNat 9 imm.toNat }
  | setq {imm : BitVec 16} (hl : s.locked = false) (h2 : 2 ≤ imm.toNat) :
      CommandEffect s (.setq imm) { s with q := imm }
  | vector {i : Instr} {k : Bank} {len : Nat} {x : Nat → Int} (hf : faultOf i s = none) (hc : isCompute i = true)
      (hlen : len ≤ s.valM) :
      CommandEffect s i (setLocked (s.withVector k len fun j => residue (x j) s.valQ))
  | scalar {i : Instr} {x : Entry} (hf : faultOf i s = none) (hc : isCompute i = true)
      (hx : 0 < s.valQ → x.toNat < s.valQ) : CommandEffect s i (setLocked { s with s := x })
  | bit {b : BitVec 1} (hf : faultOf .qdec s = none) : CommandEffect s .qdec (setLocked { s with bit := b })

/-- QENC's value is at most `floor(Q/2)`, hence below `Q` (R130). -/
theorem qenc_value_lt {s : State} {imm : BitVec 16} (h : imm.toNat ≤ 1) (hq : 0 < s.valQ) :
    (BitVec.ofNat 16 (imm.toNat * s.half)).toNat < s.valQ := by
  calc (BitVec.ofNat 16 (imm.toNat * s.half)).toNat
      ≤ imm.toNat * s.half := by rw [BitVec.toNat_ofNat]; exact Nat.mod_le _ _
    _ ≤ 1 * s.half := Nat.mul_le_mul_right _ h
    _ < s.valQ := by rw [one_mul]; exact Nat.div_lt_self hq (by decide)

/-- A command's next state is one of its effects. -/
theorem exec_effect {i : Instr} {s t : State} (h : exec i s = .next t) : CommandEffect s i t := by
  have hres (x : Int) (hq : 0 < s.valQ) : (residue x s.valQ).toNat < s.valQ := residue_toNat_lt x hq (valQ_le s)
  have hNM : s.valN ≤ s.valM := by unfold State.valM; omega
  cases hf : faultOf i s with
  | some c => rw [exec_of_faultOf hf] at h; cases h; exact .fault hf
  | none =>
    cases i with
    | nop => cases h; exact .nop
    | setn imm =>
      obtain ⟨hl, h1, h256⟩ := faultOf_setn_eq_none.1 hf
      rw [exec_setn_of_completes hf] at h; cases h; exact .setn hl h1 h256
    | setq imm =>
      obtain ⟨hl, h2⟩ := faultOf_setq_eq_none.1 hf
      rw [exec_setq_of_completes hf] at h; cases h; exact .setq hl h2
    | mvm vd vs1 =>
      rw [exec_mvm_of_ne s (faultOf_mvm_eq_none.1 hf)] at h; cases h; exact .vector hf rfl le_rfl
    | mvma vd vs1 vs2 =>
      rw [exec_mvma_of_ne vs2 s (faultOf_mvma_eq_none.1 hf)] at h; cases h; exact .vector hf rfl le_rfl
    | mvmt vd vs1 =>
      rw [exec_mvmt_of_ne s (faultOf_mvmt_eq_none.1 hf)] at h; cases h; exact .vector hf rfl hNM
    | dot vs1 vs2 len => rw [exec_dot] at h; cases h; exact .scalar hf rfl (hres _)
    | dotadd vs1 vs2 len => rw [exec_dotadd] at h; cases h; exact .scalar hf rfl (hres _)
    | dotsub vs1 vs2 len => rw [exec_dotsub] at h; cases h; exact .scalar hf rfl (hres _)
    | qenc imm =>
      have hi := faultOf_qenc_eq_none.1 hf
      rw [exec_qenc_of_le_one s hi] at h; cases h; exact .scalar hf rfl (qenc_value_lt hi)
    | qdec => rw [exec_qdec_of_lt (faultOf_qdec_eq_none.1 hf)] at h; cases h; exact .bit hf

/-- A command word takes ILLEGAL, or runs the command it decodes to (R91). -/
theorem execWord_cases {w : Word} {s t : State} (h : execWord w s = .next t) :
    t = { s with fault := faultCode .illegal, fcmd := w } ∨
    ∃ i, decode w = .command i ∧ exec i s = .next t := by
  cases hd : decode w with
  | command i => exact .inr ⟨i, rfl, execWord_command hd s ▸ h⟩
  | illegal why => rw [execWord_illegal hd] at h; cases h; exact .inl rfl

/-! ### What any input can do -/

/-- The port word addresses of the banks and of the matrix (R55, R56). -/
def EntryAddr (a : Nat) : Prop :=
  (∃ k i, i < 512 ∧ a = bankAddr k i) ∨ ∃ i j, i < 512 ∧ j < 256 ∧ a = matrixAddr i j

theorem EntryAddr.mappedByte {a : Nat} (h : EntryAddr a) : MappedByte (2 * a) ∧ MappedByte (2 * a + 1) := by
  rcases h with ⟨k, i, hi, rfl⟩ | ⟨i, j, hi, hj, rfl⟩
  · exact mappedByte_bankAddr k hi
  · exact mappedByte_matrixAddr hi hj

/-- Everything an input can do to the nine elements of R20: reset them; leave them; or, on a block that is not halted,
run a command word or store `data[15:0]` into `S`, a bank or the matrix (R57, R59, R170). -/
inductive InputEffect (s : State) : Input → State → Prop where
  | reset {i : Input} (hi : IsReset i) : InputEffect s i State.reset
  | keep {i : Input} (hi : ¬ IsReset i) : InputEffect s i s
  | command {w : Word} {t : State} (hr : s.halted = false) (h : execWord w s = .next t) :
      InputEffect s (commandWrite w) t
  | storeScalar {d : Word} (hr : s.halted = false) :
      InputEffect s (.transaction (.write (regAddr .s) d)) { s with s := d.setWidth 16 }
  | storeEntry {a : Addr} {d : Word} (hr : s.halted = false) (ha : EntryAddr a.toNat) :
      InputEffect s (.transaction (.write a d)) (s.withEntry a.toNat (d.setWidth 16))

theorem not_isReset_write {a : Addr} (d : Word) (ha : targetOf a ≠ .reg .ctrl) :
    ¬ IsReset (.transaction (.write a d)) := by
  rintro ⟨rfl, -⟩
  exact ha (targetOf_regAddr .ctrl)

/-- A write to CTRL resets the block when bit 0 of its data is set, and does nothing otherwise (R170). -/
theorem writeCtrl_effect (d : Word) (s : State) :
    ∃ u, InputEffect s (.transaction (.write (regAddr .ctrl) d)) u ∧ (writeCtrl d s).arch = u.arch := by
  unfold writeCtrl
  split_ifs with hd
  · exact ⟨_, .reset ⟨rfl, hd⟩, rfl⟩
  · exact ⟨s, .keep fun h => hd h.2, rfl⟩

theorem portWrite_effect {a : Addr} {d : Word} {s t : State} (h : portWrite a d s = .next t) :
    ∃ u, InputEffect s (.transaction (.write a d)) u ∧ t.arch = u.arch := by
  rcases portWrite_cases h with ⟨rfl, rfl⟩ | ⟨hc, -, rfl⟩ | ⟨rfl, hr, ha⟩ | ⟨rfl, hr, rfl⟩ |
    ⟨k, i, hi, ha, hr, rfl⟩ | ⟨i, j, hi, hj, ha, hr, rfl⟩ | ⟨ha, -, rfl⟩
  · exact writeCtrl_effect d s
  · exact ⟨s, .keep fun h => hc h.1, rfl⟩
  · obtain ⟨u, hu, rfl⟩ := answerCommand_next ha
    exact ⟨u, .command hr hu, rfl⟩
  · exact ⟨_, .storeScalar hr, rfl⟩
  · exact ⟨_, .storeEntry hr (.inl ⟨k, i, hi, ha⟩), by rw [ha]; rfl⟩
  · exact ⟨_, .storeEntry hr (.inr ⟨i, j, hi, hj, ha⟩), by rw [ha]; rfl⟩
  · refine ⟨s, .keep (not_isReset_write d ?_), rfl⟩
    rcases ha with ⟨r, -, hr, -, rfl⟩ | hu
    · simpa using hr
    · simp [hu]

/-- The next state of a step on an input is one of the input's effects, up to the model's own port fields. -/
theorem step_effect {i : Input} {s t : State} (h : step (presentInput i s) = .next t) :
    ∃ u, InputEffect s i u ∧ t.arch = u.arch := by
  match i with
  | .hardReset ab => cases h; exact ⟨_, .reset trivial, rfl⟩
  | .transaction (.read a) => cases h; exact ⟨s, .keep not_false, rfl⟩
  | .transaction (.write a d) => exact portWrite_effect h

/-- A step idles or takes the input it was presented. -/
theorem step_idle_or_presentInput {s t : State} (h : step s = .next t) :
    t = idle s ∨ ∃ i u, u.arch = s.arch ∧ step (presentInput i u) = .next t := by
  cases hp : s.pending with
  | nil => rw [step_of_nil hp] at h; cases h; exact .inl rfl
  | cons i rest => rw [step_of_cons hp] at h; exact .inr ⟨i, { s with pending := rest }, rfl, h⟩

/-! ### The invariants of R40 under each update -/

namespace State.Inv

variable {s t : State}

/-- The invariants speak of `N`, `Q`, `FAULT`, `FCMD` and the storage only. -/
theorem congr (h : s.Inv) (hn : t.n = s.n) (hq : t.q = s.q) (hf : t.fault = s.fault) (hc : t.fcmd = s.fcmd)
    (hm : t.mem = s.mem) : t.Inv where
  one_le_n := by rw [valN, hn]; exact h.one_le_n
  n_le := by rw [valN, hn]; exact h.n_le
  two_le_q := by rw [valQ, hq]; exact h.two_le_q
  fault_mem := by rw [hf]; exact h.fault_mem
  fcmd_zero := by rw [hf, hc]; exact h.fcmd_zero
  mem_wf := by rw [hm]; exact h.mem_wf
  mem_mapped := by rw [hm]; exact h.mem_mapped

/-- The model's own port fields do not matter. -/
theorem of_arch_eq (h : s.Inv) (ht : t.arch = s.arch) : t.Inv := by
  have ha : t.arch.Inv := ht ▸ h.congr rfl rfl rfl rfl rfl
  exact ha.congr rfl rfl rfl rfl rfl

theorem locked (h : s.Inv) : (setLocked s).Inv := h.congr rfl rfl rfl rfl rfl

/-- Fault entry keeps the invariants: the new `FAULT` is a legal one and is not 0 (R144). -/
theorem withFault (h : s.Inv) (c : FaultCause) (w : Word) : State.Inv { s with fault := faultCode c, fcmd := w } :=
  { h with
    fault_mem := .inr ⟨c, rfl⟩
    fcmd_zero := fun h0 => absurd h0 (faultCode_ne_zero c) }

theorem withN (h : s.Inv) {x : Nat} (h1 : 1 ≤ x) (h256 : x ≤ 256) : State.Inv { s with n := BitVec.ofNat 9 x } := by
  have hx : (BitVec.ofNat 9 x).toNat = x := by rw [BitVec.toNat_ofNat]; omega
  exact { h with one_le_n := h1.trans_eq hx.symm, n_le := hx.trans_le h256 }

theorem withQ (h : s.Inv) {x : Entry} (h2 : 2 ≤ x.toNat) : State.Inv { s with q := x } := { h with two_le_q := h2 }

theorem withMem (h : s.Inv) {m : Memory} (hwf : MemoryWf m) (hmap : ∀ c ∈ m, MappedByte c.1) :
    State.Inv { s with mem := m } := { h with mem_wf := hwf, mem_mapped := hmap }

theorem withEntry (h : s.Inv) {a : Nat} (ha : EntryAddr a) (e : Entry) : (s.withEntry a e).Inv := by
  refine h.withMem (writeEntry_wf h.mem_wf a e) fun c hc => ?_
  obtain ⟨hlow, hhigh⟩ := ha.mappedByte
  rcases mem_writeEntry hc with hc | hc | hc
  · exact h.mem_mapped c hc
  · exact hc ▸ hlow
  · exact hc ▸ hhigh

theorem withVector (h : s.Inv) (k : Bank) {len : Nat} (f : Nat → Entry) (hlen : len ≤ 512) :
    (s.withVector k len f).Inv := by
  refine h.withMem (writeVector_wf h.mem_wf k len f) fun c hc => ?_
  rcases mem_writeVector hc with hc | ⟨i, hi, hc⟩
  · exact h.mem_mapped c hc
  · obtain ⟨hlow, hhigh⟩ := mappedByte_bankAddr k (show i < 512 by omega)
    rcases hc with hc | hc
    · exact hc ▸ hlow
    · exact hc ▸ hhigh

/-- `M` is at most the length of a bank (R27). -/
theorem valM_le (h : s.Inv) : s.valM ≤ 512 := by
  have : s.valN ≤ 256 := h.n_le
  unfold State.valM; omega

theorem valQ_pos (h : s.Inv) : 0 < s.valQ := Nat.lt_of_lt_of_le Nat.two_pos h.two_le_q

/-- The invariants at reset (R40, R171). -/
theorem reset : State.reset.Inv where
  one_le_n := by decide
  n_le := by decide
  two_le_q := by decide
  fault_mem := .inl rfl
  fcmd_zero := fun _ => rfl
  mem_wf := memoryWf_nil
  mem_mapped := fun _ hc => nomatch hc

theorem command {i : Instr} (h : s.Inv) (he : CommandEffect s i t) : t.Inv := by
  cases he with
  | fault => exact h.withFault _ _
  | nop => exact h
  | setn hl h1 h256 => exact h.withN h1 h256
  | setq hl h2 => exact h.withQ h2
  | vector hf hc hlen => exact (h.withVector _ _ (hlen.trans h.valM_le)).locked
  | scalar | bit => exact h.congr rfl rfl rfl rfl rfl

theorem execWord {w : Word} (h : s.Inv) (ht : execWord w s = .next t) : t.Inv := by
  rcases execWord_cases ht with rfl | ⟨i, -, hi⟩
  · exact h.withFault _ _
  · exact h.command (exec_effect hi)

theorem input {i : Input} (h : s.Inv) (he : InputEffect s i t) : t.Inv := by
  cases he with
  | reset => exact .reset
  | keep => exact h
  | command _ hw => exact h.execWord hw
  | storeScalar => exact h.congr rfl rfl rfl rfl rfl
  | storeEntry _ ha => exact h.withEntry ha _

theorem stepPresentInput {i : Input} (h : s.Inv) (ht : step (presentInput i s) = .next t) : t.Inv := by
  obtain ⟨u, hu, htu⟩ := step_effect ht
  exact (h.input hu).of_arch_eq htu

end State.Inv

theorem Reachable.inv {s : State} (h : Reachable s) : s.Inv := by
  induction h with
  | reset => exact .reset
  | next i _ ht ih => exact ih.stepPresentInput ht

/-! ### The statements on the invariants -/

/-- Settles O3. -/
theorem resetMeetsInvariants : Obligations.ResetMeetsInvariants := State.Inv.reset

/-- Settles O4: a step idles, or its input has one of the effects of `InputEffect`, each of which keeps the
invariants. -/
theorem stepKeepsInvariants : Obligations.StepKeepsInvariants := by
  intro s t h ht
  rcases step_idle_or_presentInput ht with rfl | ⟨i, u, hu, ht⟩
  · exact h.of_arch_eq (arch_idle s)
  · exact (h.of_arch_eq hu).stepPresentInput ht

/-- Settles O5: the invariants hold at reset and every step keeps them; the remaining bounds are the field widths. -/
theorem reachableStatesMeetR40 : Obligations.ReachableStatesMeetR40 := by
  intro s hr
  have h := hr.inv
  have h1 : 1 ≤ s.n.toNat := h.one_le_n
  have h256 : s.n.toNat ≤ 256 := h.n_le
  have h2 : 2 ≤ s.q.toNat := h.two_le_q
  have hq : s.q.toNat < 2 ^ 16 := s.q.isLt
  have hfault : s.fault = 0#3 ∨ s.fault = 1#3 ∨ s.fault = 2#3 ∨ s.fault = 4#3 := by
    rcases h.fault_mem with h0 | ⟨c, hc⟩
    · exact .inl h0
    · cases c <;> simp [hc, faultCode]
  have hbit : s.bit = 0#1 ∨ s.bit = 1#1 := by
    generalize s.bit = b
    revert b; decide
  simp only [State.valM, State.half, State.valN, State.valQ]
  exact ⟨h1, h256, h2, by omega, by omega, by omega, by omega, by omega, hfault, h.fcmd_zero, s.s.isLt,
    fun k i => (s.v k i).isLt, fun i j => (s.a i j).isLt, hbit⟩

/-! ### The lock -/

/-- Settles O44: by the effects of a command, of which exactly the compute ones set `LOCKED`. -/
theorem computeCommandsLock : Obligations.ComputeCommandsLock := by
  intro s t i h
  cases exec_effect h with
  | fault hf => simp [hf]
  | nop | setn | setq => simp [isCompute]
  | vector hf hc | scalar hf hc => simp [hf, hc]
  | bit hf => simp [hf, isCompute]

/-- SETN and SETQ fault once `LOCKED` is set, and no other command writes `N`, `Q` or clears `LOCKED` (R29). -/
theorem CommandEffect.locked_frame {s t : State} {i : Instr} (he : CommandEffect s i t) (hl : s.locked = true) :
    t.locked = true ∧ t.n = s.n ∧ t.q = s.q := by
  cases he with
  | setn hl' | setq hl' => rw [hl] at hl'; cases hl'
  | fault | nop => exact ⟨hl, rfl, rfl⟩
  | vector | scalar | bit => exact ⟨rfl, rfl, rfl⟩

theorem InputEffect.locked_frame {s t : State} {i : Input} (he : InputEffect s i t) (hi : ¬ IsReset i)
    (hl : s.locked = true) : t.locked = true ∧ t.n = s.n ∧ t.q = s.q := by
  cases he with
  | reset hr => exact absurd hr hi
  | keep | storeScalar | storeEntry => exact ⟨hl, rfl, rfl⟩
  | command _ hw =>
    rcases execWord_cases hw with rfl | ⟨c, -, hc⟩
    · exact ⟨hl, rfl, rfl⟩
    · exact (exec_effect hc).locked_frame hl

/-- Settles O45. -/
theorem lockedParametersAreImmutable : Obligations.LockedParametersAreImmutable := by
  intro s t i hl hi ht
  obtain ⟨u, hu, htu⟩ := step_effect ht
  obtain ⟨hlu, hnu, hqu⟩ := hu.locked_frame hi hl
  exact ⟨(congrArg State.locked htu).trans hlu, (congrArg State.n htu).trans hnu, (congrArg State.q htu).trans hqu⟩

/-! ### What commands do not write -/

/-- Settles O46: the one effect that writes storage writes within a bank, as `M` is at most 512. -/
theorem noCommandWritesMatrix : Obligations.NoCommandWritesMatrix := by
  intro s t c h ht i _ j _
  cases exec_effect ht with
  | vector _ _ hlen => exact withVector_a s _ _ (hlen.trans h.valM_le) i j
  | fault | nop | setn | setq | scalar | bit => rfl

/-- QDEC has one word (R86, R88). -/
theorem eq_of_decode_qdec {w : Word} (h : decode w = .command .qdec) : w = 0x31000000#32 := by
  unfold decode at h
  split at h
  case h_11 hop =>
    have hz : bits w.toNat 23 0 = 0 := by simpa using (checkZero_eq_command.1 h).1
    simp only [opField, bits, Nat.reduceSub, Nat.reduceAdd, Nat.reducePow] at hop hz
    exact BitVec.eq_of_toNat_eq (by rw [BitVec.toNat_ofNat]; omega)
  all_goals simp [checkZero_eq_command, checkMvm_eq_command] at h

theorem CommandEffect.bit_eq {s t : State} {i : Instr} (he : CommandEffect s i t) (hi : i ≠ .qdec) :
    t.bit = s.bit := by
  cases he with
  | bit => exact absurd rfl hi
  | fault | nop | setn | setq | vector | scalar => rfl

/-- Settles O47: a command word that changes `BIT` decodes to QDEC, so it is QDEC's one word. -/
theorem onlyQdecAndResetWriteBit : Obligations.OnlyQdecAndResetWriteBit := by
  intro s t i ht hbit
  obtain ⟨u, hu, htu⟩ := step_effect ht
  rw [← arch_bit t, htu, arch_bit] at hbit
  cases hu with
  | reset hi => exact .inl hi
  | keep | storeScalar | storeEntry => exact absurd rfl hbit
  | command _ hw =>
    rcases execWord_cases hw with rfl | ⟨c, hd, hc⟩
    · exact absurd rfl hbit
    · have hq : c = .qdec := by
        by_contra hne
        exact hbit ((exec_effect hc).bit_eq hne)
      subst hq
      obtain rfl := eq_of_decode_qdec hd
      exact .inr rfl

/-! ### Results are residues and depend on the operands only -/

/-- A vector write changes an entry of a bank only to the value it writes there. -/
theorem withVector_v_eq_or (s : State) (hm : MemoryWf s.mem) (k : Bank) {len : Nat} (f : Nat → Entry)
    (hlen : len ≤ 512) (k' : Bank) {i : Nat} (hi : i < 512) :
    (s.withVector k len f).v k' i = s.v k' i ∨ (s.withVector k len f).v k' i = f i := by
  by_cases hk : k' = k
  · subst hk
    rcases Nat.lt_or_ge i len with hlt | hge
    · exact .inr (withVector_v_same s hm k' f hlt)
    · exact .inl (withVector_v_outside s k' f hge)
  · exact .inl (withVector_v_other s f hlen hk hi)

/-- Settles O48. -/
theorem commandResultsAreResidues : Obligations.CommandResultsAreResidues := by
  intro s t c h ht
  cases exec_effect ht with
  | fault | nop | setn | setq | bit => exact ⟨.inl rfl, fun _ _ _ => .inl rfl⟩
  | scalar hf hc hx => exact ⟨.inr (hx h.valQ_pos), fun _ _ _ => .inl rfl⟩
  | @vector _ k len x hf hc hlen =>
    refine ⟨.inl rfl, fun k' i hi => ?_⟩
    rw [setLocked_v]
    refine (withVector_v_eq_or s h.mem_wf k _ (hlen.trans h.valM_le) k' hi).imp_right fun he => ?_
    rw [he]
    exact residue_toNat_lt _ h.valQ_pos (valQ_le s)

/-- Two vector writes of equal values leave equal entries, whatever the two images hold. -/
theorem withVector_v_congr {s s' : State} (h : s.Inv) (h' : s'.Inv) (k : Bank) {len : Nat} {f g : Nat → Entry}
    (hfg : ∀ i < len, f i = g i) : ∀ i < len, (s.withVector k len f).v k i = (s'.withVector k len g).v k i := by
  intro i hi
  rw [withVector_v_same s h.mem_wf k f hi, withVector_v_same s' h'.mem_wf k g hi, hfg i hi]

theorem lengthOf_eq (s : State) (len : Len) : s.lengthOf len = if len = .n then s.n.toNat else 2 * s.n.toNat := by
  cases len <;> rfl

section ActiveRegion

variable {s s' : State} (hn : s.n = s'.n) (hq : s.q = s'.q)
include hn hq

/-- MVM reads the active region of the matrix and of its source bank (R38, R110). -/
theorem mvm_reads_active_region {vd vs1 : Bank} (h : s.Inv) (h' : s'.Inv) (hne : vd ≠ vs1)
    (ha : ∀ i < 2 * s.n.toNat, ∀ j < s.n.toNat, s.a i j = s'.a i j)
    (hv : ∀ j < s.n.toNat, s.v vs1 j = s'.v vs1 j) :
    ∃ t t', exec (.mvm vd vs1) s = .next t ∧ exec (.mvm vd vs1) s' = .next t' ∧
      ∀ i < 2 * s.n.toNat, t.v vd i = t'.v vd i := by
  refine ⟨_, _, exec_mvm_of_ne s hne, exec_mvm_of_ne s' hne, ?_⟩
  simp only [setLocked_v, State.valM, State.valN, State.valQ, ← hn, ← hq]
  exact withVector_v_congr h h' vd fun i hi => by rw [rowSum_congr hn (ha i hi) hv]

/-- MVMA reads its addend's first `M` entries besides (R38, R111). -/
theorem mvma_reads_active_region {vd vs1 vs2 : Bank} (h : s.Inv) (h' : s'.Inv) (hne : vd ≠ vs1)
    (ha : ∀ i < 2 * s.n.toNat, ∀ j < s.n.toNat, s.a i j = s'.a i j) (hv : ∀ j < s.n.toNat, s.v vs1 j = s'.v vs1 j)
    (he : ∀ i < 2 * s.n.toNat, s.v vs2 i = s'.v vs2 i) :
    ∃ t t', exec (.mvma vd vs1 vs2) s = .next t ∧ exec (.mvma vd vs1 vs2) s' = .next t' ∧
      ∀ i < 2 * s.n.toNat, t.v vd i = t'.v vd i := by
  refine ⟨_, _, exec_mvma_of_ne vs2 s hne, exec_mvma_of_ne vs2 s' hne, ?_⟩
  simp only [setLocked_v, State.valM, State.valN, State.valQ, ← hn, ← hq]
  exact withVector_v_congr h h' vd fun i hi => by rw [rowSum_congr hn (ha i hi) hv, he i hi]

/-- MVMT reads the active region of the matrix and the first `M` entries of its source bank (R38, R112). -/
theorem mvmt_reads_active_region {vd vs1 : Bank} (h : s.Inv) (h' : s'.Inv) (hne : vd ≠ vs1)
    (ha : ∀ i < 2 * s.n.toNat, ∀ j < s.n.toNat, s.a i j = s'.a i j)
    (hv : ∀ i < 2 * s.n.toNat, s.v vs1 i = s'.v vs1 i) :
    ∃ t t', exec (.mvmt vd vs1) s = .next t ∧ exec (.mvmt vd vs1) s' = .next t' ∧
      ∀ j < s.n.toNat, t.v vd j = t'.v vd j := by
  refine ⟨_, _, exec_mvmt_of_ne s hne, exec_mvmt_of_ne s' hne, ?_⟩
  simp only [setLocked_v, State.valN, State.valQ, ← hn, ← hq]
  exact withVector_v_congr h h' vd fun j hj => by rw [colSum_congr hn (fun i hi => ha i hi j hj) hv]

/-- The DOT family reads its banks below its length and, but for DOT itself, `S` (R38, R120 to R122). -/
theorem dot_reads_active_region {vs1 vs2 : Bank} {len : Len}
    (hv : ∀ k < s.lengthOf len, s.v vs1 k = s'.v vs1 k ∧ s.v vs2 k = s'.v vs2 k) :
    (∃ t t', exec (.dot vs1 vs2 len) s = .next t ∧ exec (.dot vs1 vs2 len) s' = .next t' ∧ t.s = t'.s) ∧
    (s.s = s'.s → ∀ c ∈ [Instr.dotadd vs1 vs2 len, .dotsub vs1 vs2 len],
      ∃ t t', exec c s = .next t ∧ exec c s' = .next t' ∧ t.s = t'.s) := by
  have hsum : s.dotSum vs1 vs2 len = s'.dotSum vs1 vs2 len := dotSum_congr hn hv
  refine ⟨⟨_, _, exec_dot .., exec_dot .., ?_⟩, fun hs c hc => ?_⟩
  · simp only [setLocked_s, State.valQ, hsum, hq]
  · simp only [List.mem_cons, List.not_mem_nil, or_false] at hc
    rcases hc with rfl | rfl
    · refine ⟨_, _, exec_dotadd .., exec_dotadd .., ?_⟩
      simp only [setLocked_s, State.valQ, hsum, hq, hs]
    · refine ⟨_, _, exec_dotsub .., exec_dotsub .., ?_⟩
      simp only [setLocked_s, State.valQ, hsum, hq, hs]

end ActiveRegion

/-- Settles O49: form by form, from what its sum reads. -/
theorem commandsReadOnlyActiveRegion : Obligations.CommandsReadOnlyActiveRegion := by
  intro s s' hn hq
  refine ⟨fun _ _ h h' => mvm_reads_active_region hn hq h h', fun _ _ _ h h' => mvma_reads_active_region hn hq h h',
    fun _ _ h h' => mvmt_reads_active_region hn hq h h', fun vs1 vs2 len hv => ?_⟩
  rw [← lengthOf_eq] at hv
  exact dot_reads_active_region hn hq hv

end Sys2Proof.Machine


/-! The statements about the host port (spec/20_memory.md). First the address decoder by ranges and one equation per
kind of read and write; then that every command, word, transaction and step answers; then the statements, each a use
of these equations. -/

namespace Sys2Proof.Machine

/-! ### The address decoder by ranges -/

/-- An address of the bank range names the entry of its bit fields (R55). -/
theorem targetOf_of_bank_range {a : Addr} (h : 0x00800 ≤ a.toNat) (h' : a.toNat ≤ 0x00FFF) :
    targetOf a = .bank (bankOfNumber (bits a.toNat 10 9)) (bits a.toNat 8 0) := by
  have ht := targetOf_bankAddr (bankOfNumber (bits a.toNat 10 9)) (bits_lt a.toNat 8 0)
  rwa [bankAddr_bits h h', BitVec.ofNat_toNat, BitVec.setWidth_eq] at ht

/-- An address from `0x20000` on names the matrix entry of its bit fields (R56). -/
theorem targetOf_of_matrix_range {a : Addr} (h : 0x20000 ≤ a.toNat) :
    targetOf a = .matrix (bits a.toNat 16 8) (bits a.toNat 7 0) := by
  have ht := targetOf_matrixAddr (bits_lt a.toNat 16 8) (bits_lt a.toNat 7 0)
  rwa [matrixAddr_bits h (Nat.le_of_lt_succ a.isLt), BitVec.ofNat_toNat, BitVec.setWidth_eq] at ht

theorem regAddr_le (r : PortReg) : (regAddr r).toNat ≤ 0x0000A := by cases r <;> decide

/-- The two gaps of the address map name nothing (R53, R60). -/
theorem targetOf_of_unmapped_range {a : Addr}
    (h : (0x0000B ≤ a.toNat ∧ a.toNat ≤ 0x007FF) ∨ (0x01000 ≤ a.toNat ∧ a.toNat ≤ 0x1FFFF)) :
    targetOf a = .unmapped := by
  rcases targetOf_cases a with ⟨r, -, rfl⟩ | ⟨k, i, -, hi, ha⟩ | ⟨i, j, -, hi, hj, ha⟩ | ⟨ht, -⟩
  · have := regAddr_le r
    omega
  · have := bankAddr_lt k hi
    omega
  · have := matrixAddr_lt hi hj
    omega
  · exact ht

/-- The addresses of the entries are the bank range and the matrix range (R53). -/
theorem entryAddr_of_range {a : Addr} (h : (0x00800 ≤ a.toNat ∧ a.toNat ≤ 0x00FFF) ∨ 0x20000 ≤ a.toNat) :
    EntryAddr a.toNat := by
  rcases h with ⟨h, h'⟩ | h
  · exact .inl ⟨_, _, bits_lt a.toNat 8 0, (bankAddr_bits h h').symm⟩
  · exact .inr ⟨_, _, bits_lt a.toNat 16 8, bits_lt a.toNat 7 0,
      (matrixAddr_bits h (Nat.le_of_lt_succ a.isLt)).symm⟩

/-- An address of an entry names a bank or a matrix entry, and is that entry's own address (R55, R56). -/
theorem targetOf_of_entryAddr {a : Addr} (h : EntryAddr a.toNat) :
    (∃ k i, targetOf a = .bank k i ∧ a.toNat = bankAddr k i) ∨
    ∃ i j, targetOf a = .matrix i j ∧ a.toNat = matrixAddr i j := by
  rcases h with ⟨k, i, hi, ha⟩ | ⟨i, j, hi, hj, ha⟩
  · have ht := targetOf_bankAddr k hi
    rw [← ha, BitVec.ofNat_toNat, BitVec.setWidth_eq] at ht
    exact .inl ⟨k, i, ht, ha⟩
  · have ht := targetOf_matrixAddr hi hj
    rw [← ha, BitVec.ofNat_toNat, BitVec.setWidth_eq] at ht
    exact .inr ⟨i, j, ht, ha⟩

/-! ### What a read returns -/

theorem readReg_status_toNat (s : State) :
    (readReg s .status).toNat = (if s.locked then 1 else 0) + 2 * (if s.fault ≠ 0#3 then 1 else 0) := by
  have hlt : (if s.locked then 1 else 0) + 2 * (if s.fault ≠ 0#3 then 1 else 0) < 2 ^ 32 := by split_ifs <;> decide
  simpa [readReg, State.status, State.halted] using Nat.mod_eq_of_lt hlt

theorem readReg_fault_toNat (s : State) : (readReg s .fault).toNat = s.fault.toNat :=
  BitVec.toNat_setWidth_of_le (by decide)

theorem readReg_n_toNat (s : State) : (readReg s .n).toNat = s.n.toNat :=
  BitVec.toNat_setWidth_of_le (by decide)

theorem readReg_m_toNat (s : State) : (readReg s .m).toNat = 2 * s.n.toNat := by
  have := s.n.isLt
  simp only [readReg, State.valM, State.valN, BitVec.toNat_ofNat]
  omega

theorem readReg_q_toNat (s : State) : (readReg s .q).toNat = s.q.toNat :=
  BitVec.toNat_setWidth_of_le (by decide)

theorem readReg_half_toNat (s : State) : (readReg s .half).toNat = s.q.toNat / 2 := by
  have := s.q.isLt
  simp only [readReg, State.half, State.valQ, BitVec.toNat_ofNat]
  omega

theorem readReg_s_toNat (s : State) : (readReg s .s).toNat = s.s.toNat :=
  BitVec.toNat_setWidth_of_le (by decide)

theorem readReg_bit_toNat (s : State) : (readReg s .bit).toNat = s.bit.toNat :=
  BitVec.toNat_setWidth_of_le (by decide)

/-- A read of a register's address, given as a number, returns the register (R54, R58). -/
theorem portRead_of_toNat_eq {a : Addr} (r : PortReg) (h : a.toNat = (regAddr r).toNat) (s : State) :
    portRead a s = dataResponse (readReg s r) := by
  obtain rfl := BitVec.eq_of_toNat_eq h
  exact portRead_reg r s

theorem portRead_reg_value {a : Addr} (r : PortReg) {s : State} {x : Nat} (hx : (readReg s r).toNat = x)
    (h : a.toNat = (regAddr r).toNat) : (portRead a s).err = false ∧ (portRead a s).data.toNat = x := by
  rw [portRead_of_toNat_eq r h]
  exact ⟨rfl, hx⟩

/-- A read of a bank or matrix address returns the stored entry, zero-extended (R57, R58). -/
theorem portRead_entry {a : Addr} (h : EntryAddr a.toNat) (s : State) :
    portRead a s = dataResponse ((readEntry s.mem a.toNat).setWidth 32) := by
  rcases targetOf_of_entryAddr h with ⟨k, i, ht, ha⟩ | ⟨i, j, ht, ha⟩ <;> rw [portRead, ht, ha] <;> rfl

theorem portRead_entry_value {a : Addr} (h : EntryAddr a.toNat) (s : State) :
    (portRead a s).err = false ∧ (portRead a s).data.toNat = (readEntry s.mem a.toNat).toNat := by
  rw [portRead_entry h]
  exact ⟨rfl, BitVec.toNat_setWidth_of_le (by decide)⟩

theorem portRead_unmapped {a : Addr} (h : targetOf a = .unmapped) (s : State) : portRead a s = errorResponse := by
  rw [portRead, h]

/-! ### What a write does -/

/-- On a block that is not halted a write to anything but CTRL goes to its target (R59). -/
theorem portWrite_running {s : State} (h : s.fault = 0#3) {a : Addr} (ha : targetOf a ≠ .reg .ctrl) (d : Word) :
    portWrite a d s = portWriteRunning (targetOf a) d s := by
  rw [portWrite, if_neg ha, if_neg (by simp [State.halted, h])]

/-- A write to `S` stores the low half of the data (R57). -/
theorem portWrite_s {s : State} (h : s.fault = 0#3) (d : Word) :
    portWrite (regAddr .s) d s = .next (respond doneResponse { s with s := d.setWidth 16 }) := by
  rw [portWrite_running h (by decide), targetOf_regAddr]
  rfl

/-- A write to a bank or matrix address stores the low half of the data in that entry (R57). -/
theorem portWrite_entry {s : State} (h : s.fault = 0#3) {a : Addr} (ha : EntryAddr a.toNat) (d : Word) :
    portWrite a d s = .next (respond doneResponse (s.withEntry a.toNat (d.setWidth 16))) := by
  rcases targetOf_of_entryAddr ha with ⟨k, i, ht, ha⟩ | ⟨i, j, ht, ha⟩ <;>
    rw [portWrite_running h (by simp [ht]), ht, ha] <;> rfl

/-- The addresses no write changes: the eight read-only registers and the unmapped addresses (R54, R60). -/
def UnwritableAddr (a : Addr) : Prop :=
  (∃ r, r ≠ .cmd ∧ r ≠ .ctrl ∧ r ≠ .s ∧ a = regAddr r) ∨ targetOf a = .unmapped

theorem UnwritableAddr.targetOf_ne_ctrl {a : Addr} (h : UnwritableAddr a) : targetOf a ≠ .reg .ctrl := by
  rcases h with ⟨r, -, hr, -, rfl⟩ | h
  · simpa using hr
  · simp [h]

/-- In every state a write to such an address is a port error and changes nothing (R60). -/
theorem portWrite_unwritable {a : Addr} (h : UnwritableAddr a) (d : Word) (s : State) :
    portWrite a d s = .next (respond errorResponse s) := by
  by_cases hf : s.fault = 0#3
  · rw [portWrite_running hf h.targetOf_ne_ctrl]
    rcases h with ⟨r, hcmd, hctrl, hs, rfl⟩ | h
    · rw [targetOf_regAddr]
      cases r with
      | cmd | ctrl | s => contradiction
      | status | fault | fcmd | n | m | q | half | bit => rfl
    · rw [h]; rfl
  · refine portWrite_halted hf ?_ d
    rintro rfl
    exact h.targetOf_ne_ctrl (targetOf_regAddr .ctrl)

/-- The low half of a port word, as a number (R57). -/
theorem setWidth_eq_lowHalf (d : Word) : d.setWidth 16 = BitVec.ofNat 16 (d.toNat % 2 ^ 16) :=
  BitVec.eq_of_toNat_eq (by simp)

/-! ### Every command, word and transaction answers -/

/-- Every command has a next state: its fault, or the effect of its rule (R91). -/
theorem exec_total (i : Instr) (s : State) : ∃ t, exec i s = .next t := by
  cases hf : faultOf i s with
  | some c => exact ⟨_, exec_of_faultOf hf⟩
  | none =>
    cases i with
    | nop => exact ⟨_, exec_nop s⟩
    | setn imm => exact ⟨_, exec_setn_of_completes hf⟩
    | setq imm => exact ⟨_, exec_setq_of_completes hf⟩
    | mvm vd vs1 => exact ⟨_, exec_mvm_of_ne s (faultOf_mvm_eq_none.1 hf)⟩
    | mvma vd vs1 vs2 => exact ⟨_, exec_mvma_of_ne vs2 s (faultOf_mvma_eq_none.1 hf)⟩
    | mvmt vd vs1 => exact ⟨_, exec_mvmt_of_ne s (faultOf_mvmt_eq_none.1 hf)⟩
    | dot vs1 vs2 len => exact ⟨_, exec_dot vs1 vs2 len s⟩
    | dotadd vs1 vs2 len => exact ⟨_, exec_dotadd vs1 vs2 len s⟩
    | dotsub vs1 vs2 len => exact ⟨_, exec_dotsub vs1 vs2 len s⟩
    | qenc imm => exact ⟨_, exec_qenc_of_le_one s (faultOf_qenc_eq_none.1 hf)⟩
    | qdec => exact ⟨_, exec_qdec_of_lt (faultOf_qdec_eq_none.1 hf)⟩

/-- No command touches what the host presents. -/
theorem CommandEffect.pending_eq {s t : State} {i : Instr} (h : CommandEffect s i t) : t.pending = s.pending := by
  cases h <;> rfl

/-- A command that reports no fault leaves `FAULT` and `FCMD` as they were (R30, R31). -/
theorem CommandEffect.fault_frame {s t : State} {i : Instr} (h : CommandEffect s i t) (hf : faultOf i s = none) :
    t.fault = s.fault ∧ t.fcmd = s.fcmd := by
  cases h with
  | fault hc => rw [hf] at hc; cases hc
  | nop | setn | setq | vector | scalar | bit => exact ⟨rfl, rfl⟩

theorem execWord_total (w : Word) (s : State) : ∃ t, execWord w s = .next t := by
  cases hd : decode w with
  | command i => rw [execWord_command hd]; exact exec_total i s
  | illegal why => exact ⟨_, execWord_illegal hd s⟩

theorem execWord_pending {w : Word} {s t : State} (h : execWord w s = .next t) : t.pending = s.pending := by
  rcases execWord_cases h with rfl | ⟨i, -, hi⟩
  · rfl
  · exact (exec_effect hi).pending_eq

/-- The answer of a command that ended in `t`: `err = 1` exactly when `t` is halted (R59). -/
theorem answerCommand_of_next (t : State) :
    answerCommand (.next t) = .next { t with rsp := some ⟨0#32, decide (t.fault ≠ 0#3)⟩ } := by
  have hr : (if t.halted then errorResponse else doneResponse) = ⟨0#32, decide (t.fault ≠ 0#3)⟩ := by
    by_cases hf : t.fault = 0#3 <;> simp [State.halted, hf, errorResponse, doneResponse]
  rw [answerCommand, hr]; rfl

theorem writeCtrl_pending (d : Word) (s : State) : (writeCtrl d s).pending = s.pending := by
  unfold writeCtrl
  split_ifs <;> rfl

/-- Every port write has a next state (R59). -/
theorem portWrite_total (a : Addr) (d : Word) (s : State) : ∃ t, portWrite a d s = .next t := by
  by_cases hc : a = regAddr .ctrl
  · exact ⟨_, hc ▸ portWrite_ctrl s d⟩
  by_cases hf : s.fault = 0#3
  · rcases targetOf_cases a with ⟨r, -, rfl⟩ | ⟨k, i, -, hi, ha⟩ | ⟨i, j, -, hi, hj, ha⟩ | ⟨ht, -⟩
    · cases r with
      | cmd =>
        obtain ⟨t, ht⟩ := execWord_total d s
        exact ⟨_, by rw [portWrite_cmd hf, ht, answerCommand_of_next]⟩
      | ctrl => contradiction
      | s => exact ⟨_, portWrite_s hf d⟩
      | status | fault | fcmd | n | m | q | half | bit =>
        exact ⟨_, portWrite_unwritable (.inl ⟨_, by decide, by decide, by decide, rfl⟩) d s⟩
    · exact ⟨_, portWrite_entry hf (.inl ⟨k, i, hi, ha⟩) d⟩
    · exact ⟨_, portWrite_entry hf (.inr ⟨i, j, hi, hj, ha⟩) d⟩
    · exact ⟨_, portWrite_unwritable (.inr ht) d s⟩
  · exact ⟨_, portWrite_halted hf hc d⟩

/-- Every port write adds a response to a state with the same inputs still to come (R52, R59). -/
theorem portWrite_answers {a : Addr} {d : Word} {s t : State} (h : portWrite a d s = .next t) :
    t.pending = s.pending ∧ ∃ r, t.rsp = some r := by
  rcases portWrite_cases h with ⟨-, rfl⟩ | ⟨-, -, rfl⟩ | ⟨-, -, ha⟩ | ⟨-, -, rfl⟩ | ⟨k, i, -, -, -, rfl⟩ |
    ⟨i, j, -, -, -, -, rfl⟩ | ⟨-, -, rfl⟩
  case inr.inr.inl =>
    obtain ⟨u, hu, rfl⟩ := answerCommand_next ha
    have hpending := execWord_pending hu
    exact ⟨hpending, _, rfl⟩
  case inl => exact ⟨writeCtrl_pending d s, _, rfl⟩
  all_goals exact ⟨rfl, _, rfl⟩

/-! ### The statements on the step -/

/-- Settles O6: by the inputs a step can take. -/
theorem everyStepAnswers : Obligations.EveryStepAnswers := by
  intro s
  cases hp : s.pending with
  | nil => exact ⟨_, step_of_nil hp, hp, nofun, nofun⟩
  | cons i rest =>
    rw [step_of_cons hp]
    match i with
    | .hardReset ab => exact ⟨_, rfl, rfl, nofun, fun _ _ _ => rfl⟩
    | .transaction (.read a) => exact ⟨_, rfl, rfl, fun _ _ _ => ⟨_, rfl⟩, nofun⟩
    | .transaction (.write a d) =>
      obtain ⟨t, ht⟩ := portWrite_total a d { s with pending := rest }
      obtain ⟨hpending, hrsp⟩ := portWrite_answers ht
      exact ⟨t, ht, hpending, fun _ _ _ => hrsp, nofun⟩

/-- A CMD write of a word that decodes to `i` is exec of `i`, answered (R59, R91). -/
theorem portWrite_cmd_command {s t : State} {w : Word} {i : Instr} (hf : s.fault = 0#3) (hd : decode w = .command i)
    (ht : exec i s = .next t) :
    portWrite (regAddr .cmd) w s = .next { t with rsp := some ⟨0#32, decide (t.fault ≠ 0#3)⟩ } := by
  rw [portWrite_cmd hf, execWord_command hd, ht, answerCommand_of_next]

/-- Settles O8. -/
theorem stepRunsDecodedCommand : Obligations.StepRunsDecodedCommand := by
  intro s t w i rest hp hf hd ht
  rw [step_of_cons hp]
  exact portWrite_cmd_command hf hd ht

theorem decodeTableWord_eq_some {nbits w : Nat} {i : Instr} (h : decodeTableWord nbits w = some i) :
    decode (BitVec.ofNat 32 (w % 2 ^ nbits)) = .command i := by
  unfold decodeTableWord at h
  split_ifs at h
  split at h
  · next hd => cases h; exact hd
  · cases h

/-- Settles O9: `withFetchWord` presents a CMD write of the word that `decodeTableWord` decodes. -/
theorem fetchWordIsNextCommand : Obligations.FetchWordIsNextCommand := by
  intro s t nbits w i hf hd ht
  exact portWrite_cmd_command hf (decodeTableWord_eq_some hd) ht

theorem reportedFault_eq_none {w : Word} {s : State} (h : reportedFault w s = none) :
    ∃ i, decode w = .command i ∧ faultOf i s = none := by
  unfold reportedFault at h
  split at h
  · next i hd => exact ⟨i, hd, h⟩
  · cases h

/-- Settles O35: the word decodes to a command that takes no fault, so `FAULT` stays 0 and the answer is
`err = 0`. -/
theorem unreportedCommandCompletes : Obligations.UnreportedCommandCompletes := by
  intro s w hf hn
  obtain ⟨i, hd, hi⟩ := reportedFault_eq_none hn
  obtain ⟨t, ht⟩ := exec_total i s
  obtain ⟨htf, htc⟩ := (exec_effect ht).fault_frame hi
  have htf : t.fault = 0#3 := htf.trans hf
  have herr : decide (t.fault ≠ 0#3) = false := by simp [htf]
  have hstep : step (presentInput (.transaction (.write 0x00000#18 w)) s) =
      .next { t with rsp := some ⟨0#32, false⟩ } := by
    have hw := portWrite_cmd_command hf hd ht
    rwa [herr] at hw
  refine ⟨⟨_, hstep, (not_halted_iff _).2 htf, ?_⟩, _, hstep, htf, htc, rfl⟩
  rintro r ⟨⟩
  rfl

/-! ### The statements on the address map and on reads -/

/-- Settles O41. -/
theorem addressMapNamesEntries : Obligations.AddressMapNamesEntries :=
  ⟨fun k _ hi => targetOf_bankAddr k hi, fun _ h h' => targetOf_of_bank_range h h',
    fun _ _ hi hj => targetOf_matrixAddr hi hj, fun _ h => targetOf_of_matrix_range h, fun _ _ _ => rfl,
    fun _ _ _ => rfl⟩

/-- Settles O40: row by row of the table of R58, with the response `portRead a s`. -/
theorem portReadReturnsTable : Obligations.PortReadReturnsTable := by
  intro s a
  refine ⟨portRead a s, step_read a s, ?zero, portRead_reg_value .status (readReg_status_toNat s),
    portRead_reg_value .fault (readReg_fault_toNat s), ?fcmd, portRead_reg_value .n (readReg_n_toNat s),
    portRead_reg_value .m (readReg_m_toNat s), portRead_reg_value .q (readReg_q_toNat s),
    portRead_reg_value .half (readReg_half_toNat s), portRead_reg_value .s (readReg_s_toNat s),
    portRead_reg_value .bit (readReg_bit_toNat s), ?bank, ?matrix,
    fun h => portRead_unmapped (targetOf_of_unmapped_range h) s⟩
  case zero =>
    rintro (h | h)
    · exact portRead_of_toNat_eq .cmd h s
    · exact portRead_of_toNat_eq .ctrl h s
  case fcmd =>
    intro h
    rw [portRead_of_toNat_eq .fcmd h]
    exact ⟨rfl, rfl⟩
  case bank =>
    intro h
    rw [State.v, bankAddr_bits h.1 h.2]
    exact portRead_entry_value (entryAddr_of_range (.inl h)) s
  case matrix =>
    intro h
    rw [State.a, matrixAddr_bits h (Nat.le_of_lt_succ a.isLt)]
    exact portRead_entry_value (entryAddr_of_range (.inr h)) s

/-! ### The statements on writes -/

theorem unwritableAddr_of_mem {a : Addr} (h : a.toNat ∈ [0x1, 0x2, 0x3, 0x5, 0x6, 0x7, 0x8, 0xA]) :
    UnwritableAddr a := by
  have hreg (r : PortReg) (hcmd : r ≠ .cmd) (hctrl : r ≠ .ctrl) (hs : r ≠ .s)
      (ha : a.toNat = (regAddr r).toNat) : UnwritableAddr a :=
    .inl ⟨r, hcmd, hctrl, hs, BitVec.eq_of_toNat_eq ha⟩
  simp only [List.mem_cons, List.not_mem_nil, or_false] at h
  rcases h with h | h | h | h | h | h | h | h
  · exact hreg .status nofun nofun nofun h
  · exact hreg .fault nofun nofun nofun h
  · exact hreg .fcmd nofun nofun nofun h
  · exact hreg .n nofun nofun nofun h
  · exact hreg .m nofun nofun nofun h
  · exact hreg .q nofun nofun nofun h
  · exact hreg .half nofun nofun nofun h
  · exact hreg .bit nofun nofun nofun h

/-- Settles O39. -/
theorem portErrorsChangeNothing : Obligations.PortErrorsChangeNothing := by
  refine ⟨fun s a d h => ?unmapped, fun s a d h => portWrite_unwritable (unwritableAddr_of_mem h) d s,
    fun s a d hf ha => portWrite_halted hf (fun hc => ha (congrArg BitVec.toNat hc)) d⟩
  have ht := targetOf_of_unmapped_range h
  refine ⟨?_, portWrite_unwritable (.inr ht) d s⟩
  rw [step_read, portRead_unmapped ht]
  rfl

/-- Settles O42. -/
theorem portWriteStoresLowHalf : Obligations.PortWriteStoresLowHalf := by
  intro s d h hf
  rw [← setWidth_eq_lowHalf]
  refine ⟨portWrite_s hf d, fun a ha => ?_⟩
  have he := entryAddr_of_range ha
  have hsame : readEntry (writeEntry s.mem a.toNat (d.setWidth 16)) a.toNat = d.setWidth 16 :=
    readEntry_writeEntry_same h.mem_wf _ _
  refine ⟨_, portWrite_entry hf he d, hsame, fun b hb => readEntry_writeEntry_other _ _ hb, rfl, ?_⟩
  rw [(portRead_entry_value he _).2, respond_mem, withEntry_mem, hsame, BitVec.toNat_setWidth]

/-- Writing an entry twice is writing it once: the two canonical images read alike. -/
theorem writeEntry_idem {m : Memory} (h : MemoryWf m) (a : Nat) (e : Entry) :
    writeEntry (writeEntry m a e) a e = writeEntry m a e := by
  have hwf := writeEntry_wf h a e
  refine memory_ext_entry (writeEntry_wf hwf a e) hwf fun b => ?_
  by_cases hb : b = a
  · rw [hb, readEntry_writeEntry_same hwf, readEntry_writeEntry_same h]
  · exact readEntry_writeEntry_other _ e hb

/-- A second write to CTRL resets a block just reset, or does nothing. -/
theorem writeCtrl_idem (d : Word) (r : Response) (s : State) :
    writeCtrl d (respond r (writeCtrl d s)) = respond r (writeCtrl d s) := by
  unfold writeCtrl
  split_ifs <;> rfl

/-- Storing the same half word at an entry again leaves the state as the first store left it (R63). -/
theorem portWrite_entry_idem {s : State} (h : s.Inv) (hf : s.fault = 0#3) {a : Addr} (ha : EntryAddr a.toNat)
    (d : Word) :
    portWrite a d (respond doneResponse (s.withEntry a.toNat (d.setWidth 16))) =
      .next (respond doneResponse (s.withEntry a.toNat (d.setWidth 16))) := by
  rw [portWrite_entry (by exact hf) ha]
  simp only [respond, State.withEntry, writeEntry_idem h.mem_wf]

/-- Settles O43: by what a port write can do. -/
theorem portWritesAreIdempotent : Obligations.PortWritesAreIdempotent := by
  intro s t a d h hcmd ht
  rw [step_write] at ht ⊢
  rcases portWrite_cases ht with ⟨rfl, rfl⟩ | ⟨hc, hh, rfl⟩ | ⟨rfl, -, -⟩ | ⟨rfl, hr, rfl⟩ |
    ⟨k, i, hi, ha, hr, rfl⟩ | ⟨i, j, hi, hj, ha, hr, rfl⟩ | ⟨ha, -, rfl⟩
  · rw [portWrite_ctrl, writeCtrl_idem]; rfl
  · exact portWrite_halted (s := respond errorResponse s) ((halted_iff s).1 hh) hc d
  · exact absurd rfl hcmd
  · exact portWrite_s (s := respond doneResponse { s with s := d.setWidth 16 }) ((not_halted_iff s).1 hr) d
  · rw [← ha]
    exact portWrite_entry_idem h ((not_halted_iff s).1 hr) (.inl ⟨k, i, hi, ha⟩) d
  · rw [← ha]
    exact portWrite_entry_idem h ((not_halted_iff s).1 hr) (.inr ⟨i, j, hi, hj, ha⟩) d
  · exact portWrite_unwritable ha d _

end Sys2Proof.Machine

/-! The statements about the encoding (spec/30_encoding.md). First the fields of a word against its number, format by
format (R82), and the decoder's rows (R85); then `decode_eq_command_iff`, which joins both directions of the round
trip; then the statements on Illegal words and on worked words. -/

namespace Sys2Proof

/-! ### What a field reads -/

theorem bankOfNumber_eq_iff {n : Nat} (h : n < 4) {b : Bank} : bankOfNumber n = b ↔ n = bankNumber b := by
  constructor
  · rintro rfl
    exact (bankNumber_bankOfNumber h).symm
  · rintro rfl
    exact bankOfNumber_bankNumber b

theorem vdField_eq_iff {w : Word} {b : Bank} : vdField w = b ↔ bits w.toNat 23 22 = bankNumber b :=
  bankOfNumber_eq_iff (bits_lt _ 23 22)

theorem vs1Field_eq_iff {w : Word} {b : Bank} : vs1Field w = b ↔ bits w.toNat 21 20 = bankNumber b :=
  bankOfNumber_eq_iff (bits_lt _ 21 20)

theorem vs2Field_eq_iff {w : Word} {b : Bank} : vs2Field w = b ↔ bits w.toNat 19 18 = bankNumber b :=
  bankOfNumber_eq_iff (bits_lt _ 19 18)

theorem lField_eq_iff {w : Word} {l : Len} : lField w = l ↔ bits w.toNat 16 16 = lenField l := by
  constructor
  · rintro rfl
    exact (lenField_lenOfField (bits_lt _ 16 16)).symm
  · intro h
    rw [lField, h, lenOfField_lenField]

theorem immField_eq_iff {w : Word} {imm : BitVec 16} : immField w = imm ↔ bits w.toNat 15 0 = imm.toNat := by
  rw [immField, ← BitVec.toNat_inj, BitVec.toNat_ofNat, Nat.mod_eq_of_lt (bits_lt _ 15 0)]

theorem formatDZero_iff {w : Word} :
    formatDZero w = true ↔ bits w.toNat 23 22 = 0 ∧ bits w.toNat 17 17 = 0 ∧ bits w.toNat 15 0 = 0 := by
  simp [formatDZero, and_assoc]

/-! ### The five formats (R82): the number of a word against its fields

In each, the left side is the row of the assembler's table (R88) and the right side what the decoder tests and reads
(R85), for an opcode `c`. -/

section Formats

variable {w : Word} {c : Nat}

theorem formatZ_iff : w.toNat = c * 2 ^ 24 ↔ opField w = c ∧ bits w.toNat 23 0 = 0 := by
  have hw := w.isLt
  simp only [opField, bits, Nat.reduceSub, Nat.reduceAdd]
  omega

theorem formatI_iff {imm : BitVec 16} :
    w.toNat = c * 2 ^ 24 + imm.toNat ↔ opField w = c ∧ bits w.toNat 23 16 = 0 ∧ immField w = imm := by
  have hw := w.isLt
  have himm := imm.isLt
  simp only [immField_eq_iff, opField, bits, Nat.reduceSub, Nat.reduceAdd]
  omega

theorem formatV2_iff {vd vs1 : Bank} :
    w.toNat = c * 2 ^ 24 + bankNumber vd * 2 ^ 22 + bankNumber vs1 * 2 ^ 20 ↔
      opField w = c ∧ bits w.toNat 19 0 = 0 ∧ vdField w = vd ∧ vs1Field w = vs1 := by
  have hw := w.isLt
  have hvd := bankNumber_lt vd
  have hvs1 := bankNumber_lt vs1
  simp only [vdField_eq_iff, vs1Field_eq_iff, opField, bits, Nat.reduceSub, Nat.reduceAdd]
  omega

theorem formatV3_iff {vd vs1 vs2 : Bank} :
    w.toNat = c * 2 ^ 24 + bankNumber vd * 2 ^ 22 + bankNumber vs1 * 2 ^ 20 + bankNumber vs2 * 2 ^ 18 ↔
      opField w = c ∧ bits w.toNat 17 0 = 0 ∧ vdField w = vd ∧ vs1Field w = vs1 ∧ vs2Field w = vs2 := by
  have hw := w.isLt
  have hvd := bankNumber_lt vd
  have hvs1 := bankNumber_lt vs1
  have hvs2 := bankNumber_lt vs2
  simp only [vdField_eq_iff, vs1Field_eq_iff, vs2Field_eq_iff, opField, bits, Nat.reduceSub, Nat.reduceAdd]
  omega

theorem formatD_iff {vs1 vs2 : Bank} {len : Len} :
    w.toNat = c * 2 ^ 24 + bankNumber vs1 * 2 ^ 20 + bankNumber vs2 * 2 ^ 18 + lenField len * 2 ^ 16 ↔
      opField w = c ∧ formatDZero w = true ∧ vs1Field w = vs1 ∧ vs2Field w = vs2 ∧ lField w = len := by
  have hw := w.isLt
  have hvs1 := bankNumber_lt vs1
  have hvs2 := bankNumber_lt vs2
  have hlen := lenField_lt len
  simp only [formatDZero_iff, vs1Field_eq_iff, vs2Field_eq_iff, lField_eq_iff, opField, bits, Nat.reduceSub,
    Nat.reduceAdd]
  omega

end Formats

/-! ### The rows of the decoder (R85) -/

/-- The opcodes of the 11 commands (R84). -/
def definedOpcodes : List Nat := [0x00, 0x01, 0x02, 0x10, 0x11, 0x12, 0x20, 0x21, 0x22, 0x30, 0x31]

section Rows

variable {w : Word}

theorem decode_row_nop (h : opField w = 0x00) : decode w = checkZero (decide (bits w.toNat 23 0 = 0)) .nop := by
  simp only [decode, h]

theorem decode_row_setn (h : opField w = 0x01) :
    decode w = checkZero (decide (bits w.toNat 23 16 = 0)) (.setn (immField w)) := by
  simp only [decode, h]

theorem decode_row_setq (h : opField w = 0x02) :
    decode w = checkZero (decide (bits w.toNat 23 16 = 0)) (.setq (immField w)) := by
  simp only [decode, h]

theorem decode_row_mvm (h : opField w = 0x10) :
    decode w = checkMvm (decide (bits w.toNat 19 0 = 0)) (vdField w) (vs1Field w)
      (.mvm (vdField w) (vs1Field w)) := by
  simp only [decode, h]

theorem decode_row_mvma (h : opField w = 0x11) :
    decode w = checkMvm (decide (bits w.toNat 17 0 = 0)) (vdField w) (vs1Field w)
      (.mvma (vdField w) (vs1Field w) (vs2Field w)) := by
  simp only [decode, h]

theorem decode_row_mvmt (h : opField w = 0x12) :
    decode w = checkMvm (decide (bits w.toNat 19 0 = 0)) (vdField w) (vs1Field w)
      (.mvmt (vdField w) (vs1Field w)) := by
  simp only [decode, h]

theorem decode_row_dot (h : opField w = 0x20) :
    decode w = checkZero (formatDZero w) (.dot (vs1Field w) (vs2Field w) (lField w)) := by
  simp only [decode, h]

theorem decode_row_dotadd (h : opField w = 0x21) :
    decode w = checkZero (formatDZero w) (.dotadd (vs1Field w) (vs2Field w) (lField w)) := by
  simp only [decode, h]

theorem decode_row_dotsub (h : opField w = 0x22) :
    decode w = checkZero (formatDZero w) (.dotsub (vs1Field w) (vs2Field w) (lField w)) := by
  simp only [decode, h]

theorem decode_row_qenc (h : opField w = 0x30) :
    decode w = checkZero (decide (bits w.toNat 23 16 = 0)) (.qenc (immField w)) := by
  simp only [decode, h]

theorem decode_row_qdec (h : opField w = 0x31) : decode w = checkZero (decide (bits w.toNat 23 0 = 0)) .qdec := by
  simp only [decode, h]

theorem decode_row_undefined (h : opField w ∉ definedOpcodes) : decode w = .illegal .undefinedOpcode := by
  unfold decode
  split
  case h_12 => rfl
  all_goals simp_all [definedOpcodes]

end Rows

/-- The test of a format fails: the word is Illegal (R86). -/
theorem checkZero_of_ne {z : Bool} (h : z ≠ true) (i : Instr) : checkZero z i = .illegal .mustBeZero := if_neg h

/-- The same for the MVM family; the aliasing test comes after this one. -/
theorem checkMvm_of_ne {z : Bool} (h : z ≠ true) (vd vs1 : Bank) (i : Instr) :
    checkMvm z vd vs1 i = .illegal .mustBeZero := if_neg h

/-! ### The round trip -/

theorem encode_eq_iff {i : Instr} {w : Word} : encode i = w ↔ w.toNat = encodeNat i := by
  rw [← BitVec.toNat_inj, encode_toNat, eq_comm]

/-- Settles O10, by cases on the command: the format of its word gives the row, the must-be-zero test and the
operands. -/
theorem decodeOfEncodeIsIdentity : Obligations.DecodeOfEncodeIsIdentity := by
  intro i hi
  have hw := encode_toNat i
  generalize encode i = w at hw ⊢
  cases i with
  | nop =>
    obtain ⟨hop, hz⟩ := (formatZ_iff (c := 0x00)).1 hw
    exact (decode_row_nop hop).trans (checkZero_eq_command.2 ⟨decide_eq_true hz, rfl⟩)
  | setn imm =>
    obtain ⟨hop, hz, rfl⟩ := (formatI_iff (c := 0x01)).1 hw
    exact (decode_row_setn hop).trans (checkZero_eq_command.2 ⟨decide_eq_true hz, rfl⟩)
  | setq imm =>
    obtain ⟨hop, hz, rfl⟩ := (formatI_iff (c := 0x02)).1 hw
    exact (decode_row_setq hop).trans (checkZero_eq_command.2 ⟨decide_eq_true hz, rfl⟩)
  | mvm vd vs1 =>
    obtain ⟨hop, hz, rfl, rfl⟩ := (formatV2_iff (c := 0x10)).1 hw
    exact (decode_row_mvm hop).trans (checkMvm_eq_command.2 ⟨decide_eq_true hz, of_decide_eq_true hi, rfl⟩)
  | mvma vd vs1 vs2 =>
    obtain ⟨hop, hz, rfl, rfl, rfl⟩ := (formatV3_iff (c := 0x11)).1 hw
    exact (decode_row_mvma hop).trans (checkMvm_eq_command.2 ⟨decide_eq_true hz, of_decide_eq_true hi, rfl⟩)
  | mvmt vd vs1 =>
    obtain ⟨hop, hz, rfl, rfl⟩ := (formatV2_iff (c := 0x12)).1 hw
    exact (decode_row_mvmt hop).trans (checkMvm_eq_command.2 ⟨decide_eq_true hz, of_decide_eq_true hi, rfl⟩)
  | dot vs1 vs2 len =>
    obtain ⟨hop, hz, rfl, rfl, rfl⟩ := (formatD_iff (c := 0x20)).1 hw
    exact (decode_row_dot hop).trans (checkZero_eq_command.2 ⟨hz, rfl⟩)
  | dotadd vs1 vs2 len =>
    obtain ⟨hop, hz, rfl, rfl, rfl⟩ := (formatD_iff (c := 0x21)).1 hw
    exact (decode_row_dotadd hop).trans (checkZero_eq_command.2 ⟨hz, rfl⟩)
  | dotsub vs1 vs2 len =>
    obtain ⟨hop, hz, rfl, rfl, rfl⟩ := (formatD_iff (c := 0x22)).1 hw
    exact (decode_row_dotsub hop).trans (checkZero_eq_command.2 ⟨hz, rfl⟩)
  | qenc imm =>
    obtain ⟨hop, hz, rfl⟩ := (formatI_iff (c := 0x30)).1 hw
    exact (decode_row_qenc hop).trans (checkZero_eq_command.2 ⟨decide_eq_true hz, rfl⟩)
  | qdec =>
    obtain ⟨hop, hz⟩ := (formatZ_iff (c := 0x31)).1 hw
    exact (decode_row_qdec hop).trans (checkZero_eq_command.2 ⟨decide_eq_true hz, rfl⟩)

/-- Settles O11, by cases on the row of the decoder: the tests it made and the fields it read give back the number of
the word. -/
theorem encodeOfDecodeIsIdentity : Obligations.EncodeOfDecodeIsIdentity := by
  intro w i h
  rw [encode_eq_iff]
  by_cases hdef : opField w ∈ definedOpcodes
  · simp only [definedOpcodes, List.mem_cons, List.not_mem_nil, or_false] at hdef
    rcases hdef with hop | hop | hop | hop | hop | hop | hop | hop | hop | hop | hop
    · obtain ⟨hz, rfl⟩ := checkZero_eq_command.1 ((decode_row_nop hop).symm.trans h)
      exact ⟨rfl, (formatZ_iff (c := 0x00)).2 ⟨hop, of_decide_eq_true hz⟩⟩
    · obtain ⟨hz, rfl⟩ := checkZero_eq_command.1 ((decode_row_setn hop).symm.trans h)
      exact ⟨rfl, (formatI_iff (c := 0x01)).2 ⟨hop, of_decide_eq_true hz, rfl⟩⟩
    · obtain ⟨hz, rfl⟩ := checkZero_eq_command.1 ((decode_row_setq hop).symm.trans h)
      exact ⟨rfl, (formatI_iff (c := 0x02)).2 ⟨hop, of_decide_eq_true hz, rfl⟩⟩
    · obtain ⟨hz, hne, rfl⟩ := checkMvm_eq_command.1 ((decode_row_mvm hop).symm.trans h)
      exact ⟨decide_eq_true hne, (formatV2_iff (c := 0x10)).2 ⟨hop, of_decide_eq_true hz, rfl, rfl⟩⟩
    · obtain ⟨hz, hne, rfl⟩ := checkMvm_eq_command.1 ((decode_row_mvma hop).symm.trans h)
      exact ⟨decide_eq_true hne, (formatV3_iff (c := 0x11)).2 ⟨hop, of_decide_eq_true hz, rfl, rfl, rfl⟩⟩
    · obtain ⟨hz, hne, rfl⟩ := checkMvm_eq_command.1 ((decode_row_mvmt hop).symm.trans h)
      exact ⟨decide_eq_true hne, (formatV2_iff (c := 0x12)).2 ⟨hop, of_decide_eq_true hz, rfl, rfl⟩⟩
    · obtain ⟨hz, rfl⟩ := checkZero_eq_command.1 ((decode_row_dot hop).symm.trans h)
      exact ⟨rfl, (formatD_iff (c := 0x20)).2 ⟨hop, hz, rfl, rfl, rfl⟩⟩
    · obtain ⟨hz, rfl⟩ := checkZero_eq_command.1 ((decode_row_dotadd hop).symm.trans h)
      exact ⟨rfl, (formatD_iff (c := 0x21)).2 ⟨hop, hz, rfl, rfl, rfl⟩⟩
    · obtain ⟨hz, rfl⟩ := checkZero_eq_command.1 ((decode_row_dotsub hop).symm.trans h)
      exact ⟨rfl, (formatD_iff (c := 0x22)).2 ⟨hop, hz, rfl, rfl, rfl⟩⟩
    · obtain ⟨hz, rfl⟩ := checkZero_eq_command.1 ((decode_row_qenc hop).symm.trans h)
      exact ⟨rfl, (formatI_iff (c := 0x30)).2 ⟨hop, of_decide_eq_true hz, rfl⟩⟩
    · obtain ⟨hz, rfl⟩ := checkZero_eq_command.1 ((decode_row_qdec hop).symm.trans h)
      exact ⟨rfl, (formatZ_iff (c := 0x31)).2 ⟨hop, of_decide_eq_true hz⟩⟩
  · cases (decode_row_undefined hdef).symm.trans h

/-- The decoder in one line: a word decodes to a command exactly when the command is well formed and the word is its
word (R85, R88). -/
theorem decode_eq_command_iff {w : Word} {i : Instr} : decode w = .command i ↔ i.WellFormed ∧ encode i = w := by
  constructor
  · exact encodeOfDecodeIsIdentity w i
  · rintro ⟨hi, rfl⟩
    exact decodeOfEncodeIsIdentity i hi

/-! ### Illegal words -/

/-- Settles O12: in each format the row's must-be-zero test fails. -/
theorem mustBeZeroBitMakesIllegal : Obligations.MustBeZeroBitMakesIllegal := by
  intro w h
  refine ⟨.mustBeZero, ?_⟩
  simp only [List.mem_cons, List.not_mem_nil, or_false] at h
  rcases h with ⟨hop, hz⟩ | ⟨hop, hz⟩ | ⟨hop, hz⟩ | ⟨hop, hz⟩ | ⟨hop, hz⟩
  · have hf : decide (bits w.toNat 23 0 = 0) ≠ true := mt of_decide_eq_true hz
    rcases hop with h | h
    · exact (decode_row_nop h).trans (checkZero_of_ne hf _)
    · exact (decode_row_qdec h).trans (checkZero_of_ne hf _)
  · have hf : decide (bits w.toNat 23 16 = 0) ≠ true := mt of_decide_eq_true hz
    rcases hop with h | h | h
    · exact (decode_row_setn h).trans (checkZero_of_ne hf _)
    · exact (decode_row_setq h).trans (checkZero_of_ne hf _)
    · exact (decode_row_qenc h).trans (checkZero_of_ne hf _)
  · have hf : decide (bits w.toNat 19 0 = 0) ≠ true := mt of_decide_eq_true hz
    rcases hop with h | h
    · exact (decode_row_mvm h).trans (checkMvm_of_ne hf _ _ _)
    · exact (decode_row_mvmt h).trans (checkMvm_of_ne hf _ _ _)
  · exact (decode_row_mvma hop).trans (checkMvm_of_ne (mt of_decide_eq_true hz) _ _ _)
  · have hf : formatDZero w ≠ true := by
      rw [Ne, formatDZero_iff]
      tauto
    rcases hop with h | h | h
    · exact (decode_row_dot h).trans (checkZero_of_ne hf _)
    · exact (decode_row_dotadd h).trans (checkZero_of_ne hf _)
    · exact (decode_row_dotsub h).trans (checkZero_of_ne hf _)

/-- Settles O13: the last row of the decoder, and the round trip for NOP. -/
theorem undefinedOpcodesAreIllegal : Obligations.UndefinedOpcodesAreIllegal := by
  refine ⟨fun w h => ⟨_, decode_row_undefined h⟩, fun w => ?_⟩
  have hnop : encode .nop = 0x00000000#32 := rfl
  rw [decode_eq_command_iff, hnop, eq_comm (b := w)]
  exact and_iff_right rfl

/-! ### Worked words -/

/-- Settles O14: each worked word is computed, and each worked illegal word is given with its reason. -/
theorem workedEncodings : Obligations.WorkedEncodings := by
  refine ⟨by decide, by decide, by decide, by decide, by decide, by decide, by decide, by decide, by decide,
    by decide, by decide, by decide, ?_⟩
  simp only [List.forall_mem_cons]
  exact ⟨⟨.aliased, by decide⟩, ⟨.mustBeZero, by decide⟩, ⟨.mustBeZero, by decide⟩, ⟨.mustBeZero, by decide⟩,
    ⟨.mustBeZero, by decide⟩, ⟨.mustBeZero, by decide⟩, ⟨.undefinedOpcode, by decide⟩,
    ⟨.undefinedOpcode, by decide⟩, List.forall_mem_nil _⟩

/-- Settles O15: each written word is the word of its command, which is well formed. -/
theorem writtenWordsDecode : Obligations.WrittenWordsDecode := by
  simp only [Obligations.WrittenWordsDecode, decode_eq_command_iff]
  decide

end Sys2Proof

/-! The statements about the configuration commands (spec/40_config.md). First the CMD write of NOP, and the faults of
SETN and SETQ in the order the rules check them; then the statements, with `exec_of_faultOf` for each fault and the
`exec_…_of_completes` equations for each legal value. -/

namespace Sys2Proof.Machine

/-! ### NOP -/

/-- A CMD write of NOP's word, in every state: refused on a halted block, done on a running one, and in both nothing
but the response changes (R59, R100). -/
theorem portWrite_cmd_nop (s : State) :
    portWrite (regAddr .cmd) (encode .nop) s = .next { s with rsp := some ⟨0#32, decide (s.fault ≠ 0#3)⟩ } := by
  by_cases hf : s.fault = 0#3
  · exact portWrite_cmd_command hf (decode_eq_command_iff.2 ⟨rfl, rfl⟩) (exec_nop s)
  · rw [portWrite_halted hf (by decide), decide_eq_true hf]
    rfl

/-- Settles O16: the CMD write of NOP's word, and the must-be-zero test of NOP's row. -/
theorem nopDoesNothing : Obligations.NopDoesNothing :=
  ⟨exec_nop, portWrite_cmd_nop, fun _ hop hz =>
    ⟨_, (decode_row_nop hop).trans (checkZero_of_ne (mt of_decide_eq_true hz) _)⟩⟩

/-! ### SETN and SETQ -/

section Parameters

variable {s : State} {imm : BitVec 16}

theorem faultOf_setn_of_locked (hl : s.locked = true) : faultOf (.setn imm) s = some .illegal := if_pos hl

theorem faultOf_setn_of_range (hl : s.locked = false) (h : imm.toNat = 0 ∨ 256 < imm.toNat) :
    faultOf (.setn imm) s = some .param := by
  rw [faultOf, if_neg (by simp [hl]), if_pos h]

theorem faultOf_setq_of_locked (hl : s.locked = true) : faultOf (.setq imm) s = some .illegal := if_pos hl

theorem faultOf_setq_of_range (hl : s.locked = false) (h : imm.toNat ≤ 1) :
    faultOf (.setq imm) s = some .param := by
  rw [faultOf, if_neg (by simp [hl]), if_pos h]

/-- A legal dimension fits in the 9 bits of `N` (R25). -/
theorem toNat_ofNat_dimension (h : imm.toNat ≤ 256) : (BitVec.ofNat 9 imm.toNat).toNat = imm.toNat := by
  rw [BitVec.toNat_ofNat, Nat.mod_eq_of_lt (by omega)]

end Parameters

/-- Settles O17: the lock, then the range, then the write, whose value fits in `N`. -/
theorem setnWritesNOrFaults : Obligations.SetnWritesNOrFaults := by
  intro s imm
  refine ⟨decode_eq_command_iff.2 ⟨rfl, rfl⟩, fun hl => exec_of_faultOf (faultOf_setn_of_locked hl),
    fun hl hr => exec_of_faultOf (faultOf_setn_of_range hl hr), fun hl h1 h256 => ?_⟩
  have hn := toNat_ofNat_dimension h256
  exact ⟨_, exec_setn_of_completes (faultOf_setn_eq_none.2 ⟨hl, h1, h256⟩), hn, congrArg (2 * ·) hn⟩

/-- Settles O18: the lock, then the range, then the write. -/
theorem setqWritesQOrFaults : Obligations.SetqWritesQOrFaults := by
  intro s imm
  exact ⟨decode_eq_command_iff.2 ⟨rfl, rfl⟩, fun hl => exec_of_faultOf (faultOf_setq_of_locked hl),
    fun hl hr => exec_of_faultOf (faultOf_setq_of_range hl hr),
    fun hl h2 => ⟨exec_setq_of_completes (faultOf_setq_eq_none.2 ⟨hl, h2⟩), rfl⟩⟩

/-- Settles O19: neither command writes the lock the other one checks, and their writes go to different registers. -/
theorem parametersSetInEitherOrder : Obligations.ParametersSetInEitherOrder := by
  intro s a b hl h1 h256 h2
  have setn_completes {t : State} (ht : t.locked = false) :=
    exec_setn_of_completes (faultOf_setn_eq_none.2 ⟨ht, h1, h256⟩)
  have setq_completes {t : State} (ht : t.locked = false) :=
    exec_setq_of_completes (faultOf_setq_eq_none.2 ⟨ht, h2⟩)
  exact ⟨_, _, _, setn_completes hl, setq_completes hl, setq_completes hl, setn_completes hl⟩

end Sys2Proof.Machine

/-! The statements about the MVM unit (spec/41_mvm.md). First the aliased words, which are the encodings of the
ill-formed terms; then the row and column sums as finite sums, and what the one vector write of MVM, MVMA and MVMT
leaves, said once for the three (`exec_vector_spec`); then the statements. -/

namespace Sys2Proof

/-! ### Aliased words -/

/-- A word that passes the must-be-zero test of its row and names one bank twice is Illegal for the aliasing
(R85, R113). -/
theorem checkMvm_of_aliased {z : Bool} (hz : z = true) {vd vs1 : Bank} (h : vd = vs1) (i : Instr) :
    checkMvm z vd vs1 i = .illegal .aliased := by
  rw [checkMvm, if_pos hz, if_neg (not_not_intro h)]

/-- The converse of `decodeOfEncodeIsIdentity`: a term that is not a command has a word all the same, and the decoder
refuses it as aliased (R113). -/
theorem decode_encode_of_not_wellFormed {i : Instr} (h : ¬ i.WellFormed) :
    decode (encode i) = .illegal .aliased := by
  have hw := encode_toNat i
  generalize encode i = w at hw ⊢
  cases i with
  | nop | setn | setq | dot | dotadd | dotsub | qenc | qdec => exact absurd rfl h
  | mvm vd vs1 =>
    obtain ⟨hop, hz, rfl, rfl⟩ := (formatV2_iff (c := 0x10)).1 hw
    exact (decode_row_mvm hop).trans (checkMvm_of_aliased (decide_eq_true hz) (by simpa [Instr.wellFormed] using h) _)
  | mvma vd vs1 vs2 =>
    obtain ⟨hop, hz, rfl, rfl, rfl⟩ := (formatV3_iff (c := 0x11)).1 hw
    exact (decode_row_mvma hop).trans (checkMvm_of_aliased (decide_eq_true hz) (by simpa [Instr.wellFormed] using h) _)
  | mvmt vd vs1 =>
    obtain ⟨hop, hz, rfl, rfl⟩ := (formatV2_iff (c := 0x12)).1 hw
    exact (decode_row_mvmt hop).trans (checkMvm_of_aliased (decide_eq_true hz) (by simpa [Instr.wellFormed] using h) _)

end Sys2Proof

namespace Sys2Proof.Machine

/-- A CMD write of an Illegal word halts the block with the whole word in `FCMD` and is answered `err = 1`
(R59, R143, R144). -/
theorem portWrite_cmd_illegal {s : State} {w : Word} {why : IllegalWord} (hf : s.fault = 0#3)
    (hd : decode w = .illegal why) :
    portWrite (regAddr .cmd) w s = .next { s with fault := 4#3, fcmd := w, rsp := some ⟨0#32, true⟩ } := by
  rw [portWrite_cmd hf, execWord_illegal hd, answerCommand_of_next]
  rfl

/-! ### The sums -/

theorem rowSum_eq_sum (s : State) (k : Bank) (i : Nat) :
    s.rowSum k i = ∑ j ∈ Finset.range s.n.toNat, ((s.a i j).toNat : Int) * ((s.v k j).toNat : Int) :=
  sumBelow_eq_sum _ _

theorem colSum_eq_sum (s : State) (k : Bank) (j : Nat) :
    s.colSum k j = ∑ i ∈ Finset.range (2 * s.n.toNat), ((s.a i j).toNat : Int) * ((s.v k i).toNat : Int) :=
  sumBelow_eq_sum _ _

/-! ### The vector write -/

/-- A command that ends in the write of the residues of `x` to the first `len` entries of bank `k`: the residues read
back, every other entry of the storage reads as before, and nothing else changes but `LOCKED` (R20, R29, R70). -/
theorem exec_vector_spec {s : State} (h : s.Inv) {c : Instr} {k : Bank} {len : Nat} {x : Nat → Int}
    (hc : exec c s = .next (setLocked (s.withVector k len fun i => residue (x i) s.valQ))) :
    ∃ t, exec c s = .next t ∧ (∀ i < len, ((t.v k i).toNat : Int) = x i % (s.q.toNat : Int)) ∧
      (∀ a, (∀ i < len, a ≠ bankAddr k i) → readEntry t.mem a = readEntry s.mem a) ∧
      t = { s with mem := t.mem, locked := true } := by
  refine ⟨_, hc, fun i hi => ?_, fun a ha => readEntry_writeVector_other _ _ _ _ ha, rfl⟩
  rw [setLocked_v, withVector_v_same s h.mem_wf k _ hi]
  exact unsigned_residue (x i) h.valQ_pos (valQ_le s)

/-- A vector write depends on its values below its length only. -/
theorem writeVector_congr (m : Memory) (k : Bank) {len : Nat} {f g : Nat → Entry} (h : ∀ i < len, f i = g i) :
    writeVector m k len f = writeVector m k len g := by
  induction len with
  | zero => rfl
  | succ len ih => rw [writeVector, writeVector, ih fun i hi => h i (by omega), h len (by omega)]

theorem withVector_congr (s : State) (k : Bank) {len : Nat} {f g : Nat → Entry} (h : ∀ i < len, f i = g i) :
    s.withVector k len f = s.withVector k len g := by
  rw [State.withVector, writeVector_congr s.mem k h, State.withVector]

/-! ### The statements on the MVM unit -/

/-- Settles O20: the row sum of natural numbers is one, and so is its residue. -/
theorem mvmComputesMatrixVector : Obligations.MvmComputesMatrixVector := by
  intro s vd vs1 h hne
  refine ⟨decode_eq_command_iff.2 ⟨decide_eq_true hne, rfl⟩, ?_⟩
  obtain ⟨t, ht, hv, hother, hframe⟩ := exec_vector_spec h (exec_mvm_of_ne s hne)
  refine ⟨t, ht, fun i hi => ?_, hother, hframe⟩
  have hvalue := hv i hi
  rw [rowSum_eq_sum] at hvalue
  exact_mod_cast hvalue

/-- Settles O21. -/
theorem mvmaAddsSignedAddend : Obligations.MvmaAddsSignedAddend := by
  intro s vd vs1 vs2 h hne
  refine ⟨decode_eq_command_iff.2 ⟨decide_eq_true hne, rfl⟩, ?_⟩
  obtain ⟨t, ht, hv, hother, hframe⟩ := exec_vector_spec h (exec_mvma_of_ne vs2 s hne)
  refine ⟨t, ht, fun i hi => ?_, hother, hframe⟩
  rw [hv i hi, rowSum_eq_sum, signed16_eq_toInt]

/-- Settles O22: as MVM, with the column sum and the length `N`. -/
theorem mvmtComputesTransposed : Obligations.MvmtComputesTransposed := by
  intro s vd vs1 h hne
  refine ⟨decode_eq_command_iff.2 ⟨decide_eq_true hne, rfl⟩, ?_⟩
  obtain ⟨t, ht, hv, hother, hframe⟩ := exec_vector_spec h (exec_mvmt_of_ne s hne)
  refine ⟨t, ht, fun j hj => ?_, hother, hframe⟩
  have hvalue := hv j hj
  rw [colSum_eq_sum] at hvalue
  exact_mod_cast hvalue

/-- Settles O24: below `M` the two commands write the same values, as a zero addend adds 0. -/
theorem mvmaWithZeroAddendIsMvm : Obligations.MvmaWithZeroAddendIsMvm := by
  intro s vd vs1 vs2 hne hzero
  have hvalue : ∀ i < s.valM,
      residue (s.rowSum vs1 i + signed16 (s.v vs2 i)) s.valQ = residue (s.rowSum vs1 i) s.valQ := fun i hi => by
    rw [hzero i hi, signed16_eq_toInt, BitVec.toInt_zero, add_zero]
  refine ⟨_, exec_mvma_of_ne vs2 s hne, ?_⟩
  rw [exec_mvm_of_ne s hne, withVector_congr s vd hvalue]

/-- Settles O23: the three words are the encodings of ill-formed terms; `d ≠ b` is all that well-formedness asks of
MVMA. -/
theorem aliasedDestinationRaisesIllegal : Obligations.AliasedDestinationRaisesIllegal := by
  intro s d b hf
  have aliased_word {i : Instr} (hi : ¬ i.WellFormed) :
      decode (encode i) = .illegal .aliased ∧
      step (presentInput (.transaction (.write 0x00000#18 (encode i))) s) =
        .next { s with fault := 4#3, fcmd := encode i, rsp := some ⟨0#32, true⟩ } :=
    have hd := decode_encode_of_not_wellFormed hi
    ⟨hd, portWrite_cmd_illegal hf hd⟩
  refine ⟨?_, fun hne => ⟨decodeOfEncodeIsIdentity _ (decide_eq_true hne),
    decodeOfEncodeIsIdentity _ (decide_eq_true hne)⟩⟩
  have hmvm : ¬ (Instr.mvm d d).WellFormed := by simp [Instr.wellFormed]
  have hmvma : ¬ (Instr.mvma d d b).WellFormed := by simp [Instr.wellFormed]
  have hmvmt : ¬ (Instr.mvmt d d).WellFormed := by simp [Instr.wellFormed]
  simp only [List.forall_mem_cons]
  exact ⟨aliased_word hmvm, aliased_word hmvma, aliased_word hmvmt, List.forall_mem_nil _⟩

end Sys2Proof.Machine

/-! The statements about the DOT unit (spec/42_dot.md). First the field `L`, the dot product as a finite sum, and what
the one write of `S` leaves, said once for the three commands (`exec_scalar_spec`); then the statements on the single
commands. The statements on decryption rest on one congruence, `secret_product_cancels`, which has no machine in it. -/

namespace Sys2Proof.Machine

/-! ### The dot product -/

theorem lenField_eq_ite (len : Len) : lenField len = if len = .n then 0 else 1 := by cases len <;> rfl

theorem dotSum_eq_sum (s : State) (k1 k2 : Bank) (len : Len) :
    s.dotSum k1 k2 len = ∑ k ∈ Finset.range (if len = .n then s.n.toNat else 2 * s.n.toNat),
      ((s.v k1 k).toNat : Int) * ((s.v k2 k).toNat : Int) := by
  rw [← lengthOf_eq]
  exact sumBelow_eq_sum _ _

theorem dotSum_comm (s : State) (k1 k2 : Bank) (len : Len) : s.dotSum k1 k2 len = s.dotSum k2 k1 len :=
  sumBelow_congr fun _ _ => mul_comm _ _

/-- A dot product does not read `S` or `LOCKED`. -/
theorem dotSum_withScalar (s : State) (x : Entry) (k1 k2 : Bank) (len : Len) :
    State.dotSum { s with s := x, locked := true } k1 k2 len = s.dotSum k1 k2 len := rfl

/-! ### The scalar write -/

theorem valQ_pos_of_ne_zero {s : State} (hq : s.q ≠ 0#16) : 0 < s.valQ :=
  Nat.pos_of_ne_zero fun h => hq (BitVec.eq_of_toNat_eq h)

/-- A command that ends in the write of the residue of `x` to `S`: the residue reads back, and nothing else changes but
`LOCKED` (R20, R29, R70). -/
theorem exec_scalar_spec {s : State} (hq : 0 < s.valQ) {c : Instr} {x : Int}
    (hc : exec c s = .next (setLocked { s with s := residue x s.valQ })) :
    ∃ y : Entry, exec c s = .next { s with s := y, locked := true } ∧ (y.toNat : Int) = x % (s.q.toNat : Int) :=
  ⟨_, hc, unsigned_residue x hq (valQ_le s)⟩

/-! ### The statements on the single commands -/

/-- Settles O25: the dot product of natural numbers is one, and so is its residue. -/
theorem dotWritesDotProduct : Obligations.DotWritesDotProduct := by
  intro s vs1 vs2 len hq
  rw [← lenField_eq_ite]
  refine ⟨decodeOfEncodeIsIdentity (.dot vs1 vs2 len) rfl, ?_, ?_⟩
  · rw [exec_dot, exec_dot, dotSum_comm]
  · obtain ⟨x, hx, hvalue⟩ := exec_scalar_spec (valQ_pos_of_ne_zero hq) (exec_dot vs1 vs2 len s)
    rw [dotSum_eq_sum] at hvalue
    exact ⟨x, hx, by exact_mod_cast hvalue⟩

/-- Settles O26: as DOT, with the old `S` inside the remainder. -/
theorem dotaddAddsScalar : Obligations.DotaddAddsScalar := by
  intro s vs1 vs2 len hq
  rw [← lenField_eq_ite]
  refine ⟨decodeOfEncodeIsIdentity (.dotadd vs1 vs2 len) rfl, ?_⟩
  obtain ⟨x, hx, hvalue⟩ := exec_scalar_spec (valQ_pos_of_ne_zero hq) (exec_dotadd vs1 vs2 len s)
  rw [dotSum_eq_sum, unsigned] at hvalue
  exact ⟨x, hx, by exact_mod_cast hvalue⟩

/-- Settles O27: the remainder of a negative integer is taken in `Int`, where it is non-negative. -/
theorem dotsubSubtractsFromScalar : Obligations.DotsubSubtractsFromScalar := by
  intro s vs1 vs2 len hq
  rw [← lenField_eq_ite]
  refine ⟨decodeOfEncodeIsIdentity (.dotsub vs1 vs2 len) rfl, ?_⟩
  obtain ⟨x, hx, hvalue⟩ := exec_scalar_spec (valQ_pos_of_ne_zero hq) (exec_dotsub vs1 vs2 len s)
  rw [dotSum_eq_sum, unsigned] at hvalue
  exact ⟨x, hx, hvalue⟩

/-! ### Decryption -/

/-- `b·r − s·(Aᵗ·r) ≡ e·r (mod q)` for `b ≡ A·s + e` and `u ≡ Aᵗ·r`: the two ways to sum `r·(A·s)` agree (R124). -/
theorem secret_product_cancels {m n : Nat} {q : Int} {a : Nat → Nat → Int} {b e r x u : Nat → Int}
    (hb : ∀ i < m, b i ≡ ∑ j ∈ Finset.range n, a i j * x j + e i [ZMOD q])
    (hu : ∀ j < n, u j ≡ ∑ i ∈ Finset.range m, a i j * r i [ZMOD q]) :
    ∑ i ∈ Finset.range m, b i * r i - ∑ j ∈ Finset.range n, x j * u j ≡
      ∑ i ∈ Finset.range m, e i * r i [ZMOD q] := by
  have hbr : ∑ i ∈ Finset.range m, b i * r i ≡
      ∑ i ∈ Finset.range m, (∑ j ∈ Finset.range n, a i j * x j + e i) * r i [ZMOD q] :=
    .sum fun i hi => (hb i (Finset.mem_range.1 hi)).mul_right _
  have hxu : ∑ j ∈ Finset.range n, x j * u j ≡
      ∑ j ∈ Finset.range n, x j * ∑ i ∈ Finset.range m, a i j * r i [ZMOD q] :=
    .sum fun j hj => (hu j (Finset.mem_range.1 hj)).mul_left _
  have hswap : ∑ j ∈ Finset.range n, x j * ∑ i ∈ Finset.range m, a i j * r i =
      ∑ i ∈ Finset.range m, (∑ j ∈ Finset.range n, a i j * x j) * r i := by
    simp only [Finset.mul_sum, Finset.sum_mul]
    rw [Finset.sum_comm]
    exact Finset.sum_congr rfl fun i _ => Finset.sum_congr rfl fun j _ => by ring
  have hsub := hbr.sub hxu
  simpa only [hswap, add_mul, Finset.sum_add_distrib, add_sub_cancel_left] using hsub

/-- The setting of R124: `kb` holds the public vector of the secret in `ks` with noise `e`, and `ku` the product of the
transposed matrix with the bits in `kr`, as MVMA and MVMT leave them. -/
structure EncryptedWith (s : State) (ks kb kr ku : Bank) (e : Nat → Int) : Prop where
  /-- `b = (A·s + e) mod Q` (R111). -/
  public_eq : ∀ i < 2 * s.n.toNat, ((s.v kb i).toNat : Int) =
    (∑ j ∈ Finset.range s.n.toNat, ((s.a i j).toNat : Int) * ((s.v ks j).toNat : Int) + e i) % (s.q.toNat : Int)
  /-- `u = (Aᵗ·r) mod Q` (R112). -/
  cipher_eq : ∀ j < s.n.toNat, (s.v ku j).toNat =
    (∑ i ∈ Finset.range (2 * s.n.toNat), (s.a i j).toNat * (s.v kr i).toNat) % s.q.toNat

/-- `e·r`, the noise of a decryption (R124). -/
def State.noiseSum (s : State) (kr : Bank) (e : Nat → Int) : Int :=
  ∑ i ∈ Finset.range (2 * s.n.toNat), e i * ((s.v kr i).toNat : Int)

section Decryption

variable {s : State} {ks kb kr ku : Bank} {e : Nat → Int}

theorem EncryptedWith.dotSum_sub_modEq (h : EncryptedWith s ks kb kr ku e) :
    s.dotSum kb kr .m - s.dotSum ks ku .n ≡ s.noiseSum kr e [ZMOD (s.q.toNat : Int)] := by
  rw [dotSum_eq_sum, dotSum_eq_sum]
  refine secret_product_cancels (a := fun i j => ((s.a i j).toNat : Int)) (fun i hi => ?_) fun j hj => ?_
  · rw [h.public_eq i hi]
    exact Int.mod_modEq _ _
  · rw [h.cipher_eq j hj]
    push_cast
    exact Int.mod_modEq _ _

/-- DOTADD and then DOTSUB add `e·r` to `S`, modulo `Q`, and change nothing else but `LOCKED` (R121, R122, R124). -/
theorem EncryptedWith.exec_dotadd_dotsub (h : EncryptedWith s ks kb kr ku e) (hq : 0 < s.valQ) :
    ∃ t, exec (.dotadd kb kr .m) s = .next t ∧
      ∃ y : Entry, exec (.dotsub ks ku .n) t = .next { s with s := y, locked := true } ∧
        (y.toNat : Int) = ((s.s.toNat : Int) + s.noiseSum kr e) % (s.q.toNat : Int) := by
  obtain ⟨x, hx, hxv⟩ := exec_scalar_spec hq (exec_dotadd kb kr .m s)
  obtain ⟨y, hy, hyv⟩ := exec_scalar_spec (s := { s with s := x, locked := true }) hq (exec_dotsub ks ku .n _)
  refine ⟨_, hx, y, hy, hyv.trans ?_⟩
  rw [dotSum_withScalar, unsigned, hxv, unsigned]
  calc ((s.dotSum kb kr .m + s.s.toNat) % (s.q.toNat : Int) - s.dotSum ks ku .n) % (s.q.toNat : Int)
      = ((s.s.toNat : Int) + (s.dotSum kb kr .m - s.dotSum ks ku .n)) % (s.q.toNat : Int) := by
        rw [Int.emod_sub_emod]; congr 1; ring
    _ = ((s.s.toNat : Int) + s.noiseSum kr e) % (s.q.toNat : Int) := h.dotSum_sub_modEq.add_left _

end Decryption

/-- Settles O28: the hypotheses are `EncryptedWith`, and `S` starts at `bit·HALF`. -/
theorem decryptionLeavesEncodedBitPlusNoise : Obligations.DecryptionLeavesEncodedBitPlusNoise := by
  intro s ks kb kr ku e bit h hb hu hs
  obtain ⟨t, ht, y, hy, hvalue⟩ := EncryptedWith.exec_dotadd_dotsub ⟨hb, hu⟩ h.valQ_pos
  rw [hs] at hvalue
  exact ⟨t, _, ht, hy, hvalue⟩

/-- A remainder near 0 is the number itself, or the number moved up by the modulus once. -/
theorem emod_eq_self_or_add {x q : Int} (hlo : -q ≤ x) (hhi : x < q) : x % q = x ∨ x % q = x + q := by
  rcases le_or_gt 0 x with h0 | h0
  · exact .inl (Int.emod_eq_of_lt h0 hhi)
  · rw [← Int.add_emod_right]
    exact .inr (Int.emod_eq_of_lt (by omega) (by omega))

/-- Noise below a quarter of the circle does not move 0 or `HALF` across a boundary of the decision (R124, R132). -/
theorem decideBit_of_small_noise {raw q bit : Nat} {x : Int} (hbit : bit ≤ 1)
    (hraw : (raw : Int) = ((bit * (q / 2) : Nat) + x) % (q : Int)) (hx : 2 * |x| < (q / 2 : Nat)) :
    (decideBit raw q).toNat = bit := by
  obtain ⟨hlo, hhi⟩ : -((q / 2 : Nat) : Int) < 2 * x ∧ 2 * x < (q / 2 : Nat) := by
    rwa [← abs_lt, abs_mul, abs_two]
  obtain rfl | rfl : bit = 0 ∨ bit = 1 := by omega
  · have hzero : decideBit raw q = 0#1 := by
      rw [Nat.zero_mul, Nat.cast_zero, zero_add] at hraw
      rw [decideBit_eq_zero_iff, lt_abs]
      rcases emod_eq_self_or_add (q := q) (x := x) (by omega) (by omega) with h | h <;> omega
    rw [hzero]; rfl
  · have hone : decideBit raw q = 1#1 := by
      rw [Nat.one_mul, Int.emod_eq_of_lt (by omega) (by omega)] at hraw
      rw [decideBit_eq_one_iff, abs_le]
      omega
    rw [hone]; rfl

/-- Settles O29: the remainder DOTSUB leaves is below `Q`, so QDEC completes, and it lies on the right side of both
boundaries. -/
theorem smallNoiseDecryptsToEncryptedBit : Obligations.SmallNoiseDecryptsToEncryptedBit := by
  intro s ks kb kr ku e bit h hbit hb hu hs hnoise
  obtain ⟨t, ht, y, hy, hvalue⟩ := EncryptedWith.exec_dotadd_dotsub ⟨hb, hu⟩ h.valQ_pos
  rw [hs] at hvalue
  have hlt : y.toNat < s.valQ := by
    have hpos : (0 : Int) < s.q.toNat := mod_cast h.valQ_pos
    exact_mod_cast hvalue.trans_lt (Int.emod_lt_of_pos _ hpos)
  exact ⟨t, _, _, ht, hy, exec_qdec_of_lt hlt, decideBit_of_small_noise hbit hvalue hnoise⟩

end Sys2Proof.Machine

/-! The statements about the QNT unit (spec/43_quantizer.md). First the closed form of the decision, which holds of any
two numbers; then the faults of the two commands and what QENC leaves, said once (`exec_qenc_spec`); then the
statements. -/

namespace Sys2Proof.Machine

/-! ### The decision -/

/-- The distance to the nearer multiple of `q` is `raw` below `HALF` and `q - raw` above it, so each side has one
boundary (R132). No bound on `raw` is needed. -/
theorem decideBit_eq_zero_iff_boundaries (raw q : Nat) :
    decideBit raw q = 0#1 ↔ 2 * raw < q / 2 ∨ q + q / 2 < 2 * raw := by
  rw [decideBit_eq_zero_iff]
  rcases le_total raw (q / 2) with h | h
  · rw [abs_of_nonpos (by omega), min_eq_left (by omega)]
    omega
  · rw [abs_of_nonneg (by omega), min_lt_iff]
    omega

theorem decideBit_eq_one_iff_boundaries (raw q : Nat) :
    decideBit raw q = 1#1 ↔ ¬(2 * raw < q / 2 ∨ q + q / 2 < 2 * raw) := by
  rw [decideBit_eq_one_iff, ← not_lt, ← decideBit_eq_zero_iff, decideBit_eq_zero_iff_boundaries]

/-- Settles O32: each listed modulus puts numbers into the two boundaries. -/
theorem qdecClosedForm : Obligations.QdecClosedForm := by
  intro s hs
  have hzero := decideBit_eq_zero_iff_boundaries s.s.toNat s.q.toNat
  refine ⟨_, exec_qdec_of_lt hs, hzero, decideBit_eq_one_iff_boundaries _ _, fun k hq => hzero.trans ?_,
    fun hq => hzero.trans ?_, fun hq => hzero.trans ?_, fun hq => hzero.trans ?_, fun hq => hzero.trans ?_⟩
  · omega
  · simp only [List.mem_cons, List.not_mem_nil, or_false]
    omega
  · simp only [List.mem_cons, List.not_mem_nil, or_false]
    omega
  · omega
  · omega

/-! ### QENC and QDEC -/

section Quantizer

variable {s : State} {imm : BitVec 16}

theorem faultOf_qenc_of_two_le (h : 2 ≤ imm.toNat) : faultOf (.qenc imm) s = some .contract := if_pos h

theorem faultOf_qdec_of_le (h : s.valQ ≤ s.s.toNat) : faultOf .qdec s = some .contract := if_pos h

/-- `bit·HALF` fits in the 16 bits of `S` (R130). -/
theorem toNat_ofNat_bit_mul_half (h : imm.toNat ≤ 1) (s : State) :
    (BitVec.ofNat 16 (imm.toNat * s.half)).toNat = imm.toNat * (s.q.toNat / 2) := by
  have hhalf : imm.toNat * s.half ≤ s.q.toNat :=
    calc imm.toNat * s.half ≤ 1 * s.half := Nat.mul_le_mul_right _ h
      _ ≤ s.q.toNat := by rw [one_mul]; exact Nat.div_le_self _ _
  rw [BitVec.toNat_ofNat, Nat.mod_eq_of_lt (hhalf.trans_lt s.q.isLt), State.half, State.valQ]

/-- QENC of a bit leaves `bit·HALF` in `S`, below any modulus that may be set, and nothing else changes but `LOCKED`
(R29, R130). -/
theorem exec_qenc_spec (s : State) (h : imm.toNat ≤ 1) :
    ∃ x : Entry, exec (.qenc imm) s = .next { s with s := x, locked := true } ∧
      x.toNat = imm.toNat * (s.q.toNat / 2) ∧ (2 ≤ s.q.toNat → x.toNat < s.q.toNat) :=
  ⟨_, exec_qenc_of_le_one s h, toNat_ofNat_bit_mul_half h s, fun hq => qenc_value_lt h (Nat.zero_lt_of_lt hq)⟩

end Quantizer

/-! ### The statements on the QNT unit -/

/-- Settles O33: the encoded bit is the encoded bit with no noise, and the decision reads `S` and `Q` only. -/
theorem encodeThenDecideReturnsBit : Obligations.EncodeThenDecideReturnsBit := by
  refine ⟨fun s imm hq himm => ?_, fun s s' hs hq hlt => ?_⟩
  · obtain ⟨x, hx, hvalue, hlt⟩ := exec_qenc_spec s himm
    have hnoiseless : (x.toNat : Int) = ((imm.toNat * (s.q.toNat / 2) : Nat) + 0) % (s.q.toNat : Int) := by
      rw [add_zero, ← hvalue, Int.emod_eq_of_lt (Int.natCast_nonneg _) (mod_cast hlt hq)]
    have hdecide : exec .qdec { s with s := x, locked := true } = _ := exec_qdec_of_lt (hlt hq)
    have hsmall : 2 * |(0 : Int)| < (s.q.toNat / 2 : Nat) := by rw [abs_zero]; omega
    exact ⟨_, _, hx, hdecide, decideBit_of_small_noise himm hnoiseless hsmall⟩
  · have hlt' : s'.s.toNat < s'.q.toNat := by rwa [← hs, ← hq]
    exact ⟨_, _, exec_qdec_of_lt hlt, exec_qdec_of_lt hlt',
      congrArg₂ decideBit (congrArg BitVec.toNat hs) (congrArg BitVec.toNat hq)⟩

/-- Settles O30: the range of the immediate, then the write. -/
theorem qencEncodesBitOrFaults : Obligations.QencEncodesBitOrFaults := fun s imm =>
  ⟨decodeOfEncodeIsIdentity (.qenc imm) rfl, fun h => exec_of_faultOf (faultOf_qenc_of_two_le h), exec_qenc_spec s⟩

/-- Settles O31: the range of `S`, then the decision as R131 states it. -/
theorem qdecDecidesNearestOrFaults : Obligations.QdecDecidesNearestOrFaults := fun _ =>
  ⟨decodeOfEncodeIsIdentity .qdec rfl, fun h => exec_of_faultOf (faultOf_qdec_of_le h), fun h =>
    ⟨_, exec_qdec_of_lt h, (decideBit_eq_zero_iff _ _).2, (decideBit_eq_one_iff _ _).2⟩⟩

end Sys2Proof.Machine

/-! The statements about faults, the halted state and idling (spec/60_exceptions.md). First what a command word does,
by the fault it reports; then what an input does to a halted block; then the statements. -/

namespace Sys2Proof.Machine

/-! ### A command word, by the fault it reports -/

theorem reportedFault_command {w : Word} {i : Instr} (h : decode w = .command i) (s : State) :
    reportedFault w s = faultOf i s := by
  rw [reportedFault, h]

theorem reportedFault_illegal {w : Word} {why : IllegalWord} (h : decode w = .illegal why) (s : State) :
    reportedFault w s = some .illegal := by
  rw [reportedFault, h]

/-- A command's own fault records `encode` of the command, which is the word that decoded to it, so every reported
fault is taken with the whole word (R144). -/
theorem execWord_of_reportedFault {w : Word} {s : State} {c : FaultCause} (h : reportedFault w s = some c) :
    execWord w s = .next { s with fault := faultCode c, fcmd := w } := by
  cases hd : decode w with
  | command i =>
    obtain ⟨-, hw⟩ := decode_eq_command_iff.1 hd
    rw [reportedFault_command hd] at h
    rw [execWord_command hd, exec_of_faultOf h, hw]
  | illegal why =>
    rw [reportedFault_illegal hd] at h
    cases h
    exact execWord_illegal hd s

/-- A word that reports no fault leaves `FAULT` as it was (R30). -/
theorem execWord_fault_of_unreported {w : Word} {s t : State} (h : reportedFault w s = none)
    (ht : execWord w s = .next t) : t.fault = s.fault := by
  obtain ⟨i, hd, hi⟩ := reportedFault_eq_none h
  rw [execWord_command hd] at ht
  exact ((exec_effect ht).fault_frame hi).1

/-! ### An input on a running and on a halted block -/

/-- Only a command word with a reported fault makes a running block halt; a reset clears `FAULT` and every other input
leaves it (R140, R149). -/
theorem InputEffect.halts {s t : State} {i : Input} (he : InputEffect s i t) (hs : s.fault = 0#3)
    (ht : t.fault ≠ 0#3) :
    ∃ w c, i = commandWrite w ∧ reportedFault w s = some c ∧ t.fault = faultCode c ∧ t.fcmd = w := by
  cases he with
  | reset => exact absurd rfl ht
  | keep | storeScalar | storeEntry => exact absurd hs ht
  | @command w _ _ hw =>
    cases hc : reportedFault w s with
    | none => exact absurd ((execWord_fault_of_unreported hc hw).trans hs) ht
    | some c =>
      rw [execWord_of_reportedFault hc] at hw
      cases hw
      exact ⟨w, c, rfl, hc, rfl, rfl⟩

/-- Commands and stores need a running block, so a halted one is reset or left as it is (R145, R146). -/
theorem InputEffect.of_halted {s t : State} {i : Input} (he : InputEffect s i t) (hs : s.fault ≠ 0#3) :
    (IsReset i ∧ t = State.reset) ∨ (¬ IsReset i ∧ t = s) := by
  cases he with
  | reset hi => exact .inl ⟨hi, rfl⟩
  | keep hi => exact .inr ⟨hi, rfl⟩
  | command hr | storeScalar hr | storeEntry hr => exact absurd ((not_halted_iff s).1 hr) hs

/-- A write to CTRL with bit 0 clear is accepted, and only the response changes (R54, R170). -/
theorem portWrite_ctrl_clear {d : Word} (hd : d.getLsbD 0 = false) (s : State) :
    portWrite (regAddr .ctrl) d s = .next (respond doneResponse s) := by
  rw [portWrite_ctrl, writeCtrl, if_neg (ne_true_of_eq_false hd)]

/-! ### The statements on faults, the halted state and idling -/

/-- Settles O7. -/
theorem idleStepKeepsState : Obligations.IdleStepKeepsState := fun _ => step_of_nil

/-- Settles O34: the word takes the fault it reports, and a fault code is not 0, so the answer is `err = 1`. -/
theorem reportedFaultIsTakenPrecisely : Obligations.ReportedFaultIsTakenPrecisely := by
  intro s w c hf hc
  have herr : decide (faultCode c ≠ 0#3) = true := decide_eq_true (faultCode_ne_zero c)
  calc step (presentInput (commandWrite w) s)
      = answerCommand (execWord w s) := portWrite_cmd hf w
    _ = .next { s with fault := faultCode c, fcmd := w, rsp := some ⟨0#32, true⟩ } := by
      rw [execWord_of_reportedFault hc, answerCommand_of_next, herr]

/-- Settles O36: by the effects of the input. -/
theorem onlyFaultingCommandsHalt : Obligations.OnlyFaultingCommandsHalt := by
  intro s t i hs ht hne
  obtain ⟨u, hu, htu⟩ := step_effect ht
  have hfault : t.fault = u.fault := by simpa using congrArg State.fault htu
  have hfcmd : t.fcmd = u.fcmd := by simpa using congrArg State.fcmd htu
  rw [hfault] at hne ⊢
  rw [hfcmd]
  exact hu.halts hs hne

/-- Settles O37. -/
theorem haltedBlockIsFrozen : Obligations.HaltedBlockIsFrozen := fun s hs =>
  ⟨fun _ d ha => portWrite_halted hs ha d, fun _ hd => portWrite_ctrl_clear hd s, fun a => step_read a s,
    step_of_nil rfl⟩

/-- Settles O38: by the effects of the input. -/
theorem onlyResetLeavesHalt : Obligations.OnlyResetLeavesHalt := by
  intro s t i hs ht
  obtain ⟨u, hu, htu⟩ := step_effect ht
  rw [htu]
  rcases hu.of_halted hs with ⟨hi, rfl⟩ | ⟨hi, rfl⟩
  · exact .inl ⟨hi, rfl⟩
  · exact .inr ⟨hi, rfl⟩

end Sys2Proof.Machine

/-! The statements about reset (spec/70_reset_and_hazards.md). First what the accessors read of a block just reset, and
the write to CTRL that resets; then the statements. -/

namespace Sys2Proof.Machine

/-! ### The views of a block just reset (R171) -/

section ResetViews

variable (s : State)

/-- Reset zeroizes the banks: the storage image it leaves lists no byte (R172). -/
@[simp] theorem resetBlock_v (k : Bank) (i : Nat) : (resetBlock s).v k i = 0#16 := readEntry_nil (bankAddr k i)

/-- Reset zeroizes the matrix (R172). -/
@[simp] theorem resetBlock_a (i j : Nat) : (resetBlock s).a i j = 0#16 := readEntry_nil (matrixAddr i j)

@[simp] theorem resetBlock_valN : (resetBlock s).valN = 128 := rfl

@[simp] theorem resetBlock_valM : (resetBlock s).valM = 256 := by
  rw [State.valM, resetBlock_valN]

@[simp] theorem resetBlock_valQ : (resetBlock s).valQ = 2048 := rfl

@[simp] theorem resetBlock_half : (resetBlock s).half = 1024 := by
  rw [State.half, resetBlock_valQ]

/-- A reset leaves the halted state, since it clears `FAULT` (R146). -/
@[simp] theorem resetBlock_halted : (resetBlock s).halted = false :=
  (not_halted_iff _).2 rfl

@[simp] theorem resetBlock_status : (resetBlock s).status = 0#32 := by
  simp [State.status]

@[simp] theorem resetBlock_faultPin : (resetBlock s).faultPin = false := resetBlock_halted s

end ResetViews

/-! ### The write that resets -/

/-- A write to CTRL with bit 0 set resets the block, halted or not, and is accepted (R59, R170). -/
theorem portWrite_ctrl_set {d : Word} (hd : d.getLsbD 0 = true) (s : State) :
    portWrite (regAddr .ctrl) d s = .next (respond doneResponse (resetBlock s)) := by
  rw [portWrite_ctrl, writeCtrl, if_pos hd]

/-! ### The statements on reset -/

/-- Settles O1: the stored elements are those of `State.reset`, and the banks, the matrix and the derived views are
read from them. -/
theorem resetSetsEveryElement : Obligations.ResetSetsEveryElement := fun s =>
  ⟨resetBlock_n s, resetBlock_q s, resetBlock_s s, resetBlock_bit s, resetBlock_locked s, resetBlock_fault s,
    resetBlock_fcmd s, resetBlock_v s, resetBlock_a s, resetBlock_valM s, resetBlock_half s, resetBlock_status s,
    resetBlock_faultPin s, (arch_resetBlock s).symm⟩

/-- Settles O2: either source gives the reset block, and the two next states differ in the response only. That the
pulse leaves none is assumption log, entry 9. -/
theorem softAndHardResetAgree : Obligations.SoftAndHardResetAgree := by
  intro s data abandoned hdata
  have soft : step (presentInput (.transaction (.write (regAddr .ctrl) data)) s) =
      .next (respond doneResponse (resetBlock s)) :=
    (step_write (regAddr .ctrl) data s).trans (portWrite_ctrl_set hdata s)
  have hard : step (presentInput (.hardReset abandoned) s) = .next (hardReset s) := step_hardReset abandoned s
  exact ⟨_, _, soft, hard, arch_resetBlock s, arch_hardReset s, rfl, hardReset_rsp s⟩

end Sys2Proof.Machine
